-- ==== Sys2Proof/Word.lean ====
section
/-! DEFINITION. The word types of HC3-CORE (00_scope.md R5) and its two containers, the Matrix3 and the
Vector3 of the spec's data model (00_scope.md R8). -/

namespace Sys2Proof

/-- A register-port data word, `REG_W` = 32 (R5). -/
abbrev Word := BitVec 32

/-- A stored operand element, `ELEM_W` = 16, two's complement (R5). -/
abbrev Elem := BitVec 16

/-- A stored result element, `RES_W` = 8, unsigned (R5). -/
abbrev ResElem := BitVec 8

/-- A byte address in the register window, `ADDR_W` = 9 (R5, R33). -/
abbrev Addr := BitVec 9

/-- The four write byte strobes of the port (R32). -/
abbrev Strobes := BitVec 4

/-- A 3×3 matrix, row-major: element (r, c) is `m(3·r + c)`, the spec's M0 … M8 (R8). -/
structure Mat3 (α : Type) where
  m0 : α
  m1 : α
  m2 : α
  m3 : α
  m4 : α
  m5 : α
  m6 : α
  m7 : α
  m8 : α
deriving DecidableEq, Repr

/-- A vector of three elements, element 0 first (R20). -/
structure Vec3 (α : Type) where
  v0 : α
  v1 : α
  v2 : α
deriving DecidableEq, Repr

/-- The matrix whose nine elements are all `a`. -/
def Mat3.fill {α : Type} (a : α) : Mat3 α := ⟨a, a, a, a, a, a, a, a, a⟩

/-- The vector whose three elements are all `a`. -/
def Vec3.fill {α : Type} (a : α) : Vec3 α := ⟨a, a, a⟩

end Sys2Proof
end

