-- ==== Sys2Proof/Config.lean ====
section
/-! DEFINITION. What the spec leaves to an implementation, the platform or the moment: the free values of
unspecified reads, and the parameters no rule depends on (92_eei_decisions.md D37, D41;
93_implementation_defined.md X1, X2, X5, X11). None of them has a body a proof could look into. -/

namespace Sys2Proof.Config

/-- The word the `n`-th unspecified read returns (70_reset_and_hazards.md R104: "A model gives each such read
a free draw, under no law"; X1). Assumption log 3. -/
opaque freeRead : Nat → Word

/-- `MAX_LAT` less one (R5 gives `MAX_LAT` ≥ 1 and no value). Assumption log 7. -/
opaque maxLatLessOne : Nat

/-- `MAX_LAT`, the bound in clock cycles from acceptance to completion (R5, R109). The model takes no time and
no definition of it depends on this value ("must not depend on its value", R5). -/
def maxLat : Nat := maxLatLessOne + 1

/-- `PORT_WAIT`, the wait cycles before `ready` (R32, D41). No rule depends on it. Assumption log 7. -/
opaque portWait : Nat

/-- Where the platform puts the 512-byte window in the host's address map (R33, X11). Assumption log 7. -/
opaque windowBase : Nat

/-- The port address of a host address: "the host's address minus the window base is `addr`" (R33); `none`
where the host address lies outside the window, so that the block sees no access. -/
def portAddr (hostAddr : Nat) : Option Addr :=
  if windowBase ≤ hostAddr ∧ hostAddr < windowBase + 512 then
    some (BitVec.ofNat 9 (hostAddr - windowBase))
  else none

end Sys2Proof.Config
end

