-- ==== Sys2Proof/Syntax.lean ====
section
/-! DEFINITION. The commands of HC3-CORE: one constructor per row of spec/opcode_table.json, in its order
(30_encoding.md R48). A command that uses the modulus carries it as the integer m = uint(M) (R47 (a)). -/

namespace Sys2Proof

/-- The nine commands (R48). -/
inductive Instr where
  /-- `PMOD m`, opcode 0x01: the residue of OPA (40_modular_arith.md R60). -/
  | pmod (m : Nat)
  /-- `MODINV m`, opcode 0x02: gcd and modular inverse of OPA (R61). -/
  | modinv (m : Nat)
  /-- `DETM m`, opcode 0x03: determinant of MAT_A, raw and mod m (41_matrix_algebra.md R68). -/
  | detm (m : Nat)
  /-- `ADJM m`, opcode 0x04: adjugate of MAT_A mod m (R69). -/
  | adjm (m : Nat)
  /-- `REDM m`, opcode 0x05: MAT_A reduced mod m (R70). -/
  | redm (m : Nat)
  /-- `SCALEM m`, opcode 0x06: MAT_A times OPA, mod m (R71). -/
  | scalem (m : Nat)
  /-- `CRT`, opcode 0x07: MAT_A mod 2 and MAT_B mod 13 recombined mod 26 (42_crt_inverter.md R75). -/
  | crt
  /-- `MATVEC`, opcode 0x08: MAT_A times VEC mod 26 (R72). -/
  | matvec
  /-- `INV26`, opcode 0x09: the inverse of MAT_A mod 26 (R80). -/
  | inv26
deriving DecidableEq, Repr

end Sys2Proof
end

