-- ==== Sys2Proof/Machine/State.lean ====
section
/-! DEFINITION. The state of HC3-CORE (10_state.md R10-R30) and, beside it, what the model holds of the outside:
the host's accesses still to come, the order in which the agents move, the port's outputs and the index of the
next free value. All plain data. -/

namespace Sys2Proof.Machine

/-- The result codes of STATUS.RC (R15). Codes 7..15 are "never produced" and have no constructor
(93_implementation_defined.md X4). Assumption log 13. -/
inductive ResultCode where
  /-- 0: the command produced its full result. -/
  | ok
  /-- 1: INV26, det ≡ 0 (mod 2). -/
  | noninvMod2
  /-- 2: INV26, det ≢ 0 (mod 2) and det ≡ 0 (mod 13). -/
  | noninvMod13
  /-- 3: INV26, defensive; "unreachable … but defined" (R15, R78). -/
  | modinvAbsent
  /-- 4: MODINV, gcd(a mod m, m) ≠ 1. -/
  | noInverse
  /-- 5: reserved opcode or nonzero reserved field. -/
  | illegalCommand
  /-- 6: m = 0 for a command that uses m. -/
  | illegalOperand
deriving DecidableEq, Repr

/-- The in-flight latch L (R26). `valid` is STATUS.BUSY: "STATUS.BUSY always equals L.valid". -/
structure Latch where
  valid : Bool
  cmd : Word
  opa : Word
  matA : Mat3 Elem
  matB : Mat3 Elem
  vec : Vec3 Elem
deriving DecidableEq, Repr

/-- Every piece of state the spec gives the block (R11-R27). ID is hardwired and needs no storage (R12). -/
structure Block where
  /-- CTRL.IE (R13). -/
  ie : Bool
  /-- STATUS.DONE (R14, R89). -/
  done : Bool
  /-- STATUS.OVR (R14, R90). -/
  ovr : Bool
  /-- STATUS.RC (R14, R15). -/
  rc : ResultCode
  /-- STATUS.LAST_OP (R14). -/
  lastOp : BitVec 8
  /-- CMD readback: the last accepted command word (R16). -/
  cmd : Word
  /-- OPA (R17). -/
  opa : Word
  /-- MAT_A[0..8] (R18). -/
  matA : Mat3 Elem
  /-- MAT_B[0..8] (R19). -/
  matB : Mat3 Elem
  /-- VEC[0..2] (R20). -/
  vec : Vec3 Elem
  /-- RES_SCALAR (R21). -/
  resScalar : Word
  /-- RES_GCD (R22). -/
  resGcd : Word
  /-- RES_DET_LO (R23). -/
  resDetLo : Word
  /-- RES_DET_HI (R23). -/
  resDetHi : Word
  /-- MAT_R[0..8] (R24). -/
  matR : Mat3 ResElem
  /-- VEC_R[0..2] (R25). -/
  vecR : Vec3 ResElem
  /-- L (R26). -/
  latch : Latch
deriving DecidableEq, Repr

/-- One thing the host does next: an access on the port (R32, R34, R35), or one of the two ways of waiting for
a completion (R42). -/
inductive HostOp where
  /-- A read transaction at a byte address (R34). -/
  | read (addr : Addr)
  /-- A write transaction with its data and byte strobes (R35). -/
  | write (addr : Addr) (wdata : Word) (wstrb : Strobes)
  /-- `WAIT`: read STATUS, and again while bit 0 of the result is 1 (R56). -/
  | waitNotBusy
  /-- Wait until `irq` = 1 is observed (R42, R111). Assumption log 11. -/
  | waitIrq
deriving DecidableEq, Repr

/-- Which agent moves in a step (R10, R41), or that reset is in effect (R100). -/
inductive Turn where
  | host
  | core
  | reset
deriving DecidableEq, Repr

/-- The port's outputs in the step just taken (R32). Assumption log 10. -/
inductive PortOut where
  /-- `ready` = 0: no access completed in this step. -/
  | idle
  /-- `ready` = 1, a read: `rdata` and `err`. -/
  | readDone (rdata : Word) (err : Bool)
  /-- `ready` = 1, a write: `err`. -/
  | writeDone (err : Bool)
deriving DecidableEq, Repr

/-- The whole machine: the block, and the model's own record of its surroundings. -/
structure State where
  /-- The spec's state. -/
  block : Block
  /-- The host's accesses still to be made, in issue order (R41). Assumption log 1. -/
  host : List HostOp
  /-- Who moves in the coming steps: the interleaving R41 and R109 leave open. Assumption log 1. -/
  turns : List Turn
  /-- The port's outputs in the step just taken (R32). -/
  port : PortOut
  /-- The index of the next unspecified read's free value (R104). Assumption log 3. -/
  draws : Nat
deriving DecidableEq, Repr

/-- Why a run stops. The block itself never stops ("No item here is `stuck`", 93_implementation_defined.md
section 1), so `step` raises none of these. -/
inductive Fault where
  /-- A host access the port refuses (R36: "A model treats a bus-error access as a host fault"; X10). Raised by
  `Sys2Proof.Safety.hostStep` alone, the host's view of a step; `step` goes on with `err` = 1, as the block
  does. Safe: the hardware changes no state there. -/
  | hostBusError
deriving DecidableEq, Repr

/-- Why an instruction has no meaning. -/
inductive Refusal where
  /-- An instruction of the opcode table without a meaning yet. Raised by an arm of `exec`; no arm does. Safe:
  the machine stops. -/
  | notModelled (mnemonic : String)
deriving DecidableEq, Repr

/-- L after reset: no command in flight. The other fields are "then unobservable" (R26); they are 0 here, a
DESIGN CHOICE, assumption log 4. -/
def Latch.reset : Latch :=
  { valid := false, cmd := 0, opa := 0, matA := Mat3.fill 0, matB := Mat3.fill 0, vec := Vec3.fill 0 }

/-- The block after reset (R30). -/
def Block.reset : Block :=
  { ie := false
    done := false
    ovr := false
    rc := .ok
    lastOp := 0
    cmd := 0
    opa := 0
    matA := Mat3.fill 0
    matB := Mat3.fill 0
    vec := Vec3.fill 0
    resScalar := 0
    resGcd := 0
    resDetLo := 0
    resDetHi := 0
    matR := Mat3.fill 0
    vecR := Vec3.fill 0
    latch := Latch.reset }

/-- The machine right after reset: the block as R30 says, nothing asked of the port yet, `ready` = 0 (R100), and
no turn settled in advance. -/
def State.reset : State :=
  { block := Block.reset, host := [], turns := [], port := .idle, draws := 0 }

end Sys2Proof.Machine
end

