-- ==== Sys2Proof/Machine/Operands.lean ====
section
/-! DEFINITION. Elements of matrices and vectors (00_scope.md R8), the operands of a command as exact integers
(30_encoding.md R47), and the widths at which values are stored (10_state.md R18, R21-R25). -/

namespace Sys2Proof

/-- `M[i]`, i = 0..8 (R8). -/
def Mat3.get {α : Type} (M : Mat3 α) (i : Fin 9) : α :=
  match i with
  | 0 => M.m0
  | 1 => M.m1
  | 2 => M.m2
  | 3 => M.m3
  | 4 => M.m4
  | 5 => M.m5
  | 6 => M.m6
  | 7 => M.m7
  | 8 => M.m8

/-- `M` with `M[i]` replaced by `a`. -/
def Mat3.set {α : Type} (M : Mat3 α) (i : Fin 9) (a : α) : Mat3 α :=
  match i with
  | 0 => { M with m0 := a }
  | 1 => { M with m1 := a }
  | 2 => { M with m2 := a }
  | 3 => { M with m3 := a }
  | 4 => { M with m4 := a }
  | 5 => { M with m5 := a }
  | 6 => { M with m6 := a }
  | 7 => { M with m7 := a }
  | 8 => { M with m8 := a }

/-- Element (r, c), which has index 3·r + c (R8). -/
def Mat3.entry {α : Type} (M : Mat3 α) (r c : Fin 3) : α := M.get ⟨3 * r.val + c.val, by omega⟩

/-- `f` on every element. -/
def Mat3.map {α β : Type} (f : α → β) (M : Mat3 α) : Mat3 β :=
  ⟨f M.m0, f M.m1, f M.m2, f M.m3, f M.m4, f M.m5, f M.m6, f M.m7, f M.m8⟩

/-- `f` on the elements of equal index. -/
def Mat3.zipWith {α β γ : Type} (f : α → β → γ) (A : Mat3 α) (B : Mat3 β) : Mat3 γ :=
  ⟨f A.m0 B.m0, f A.m1 B.m1, f A.m2 B.m2, f A.m3 B.m3, f A.m4 B.m4, f A.m5 B.m5, f A.m6 B.m6, f A.m7 B.m7,
    f A.m8 B.m8⟩

/-- `v[i]`, i = 0..2 (R8). -/
def Vec3.get {α : Type} (v : Vec3 α) (i : Fin 3) : α :=
  match i with
  | 0 => v.v0
  | 1 => v.v1
  | 2 => v.v2

/-- `v` with `v[i]` replaced by `a`. -/
def Vec3.set {α : Type} (v : Vec3 α) (i : Fin 3) (a : α) : Vec3 α :=
  match i with
  | 0 => { v with v0 := a }
  | 1 => { v with v1 := a }
  | 2 => { v with v2 := a }

/-- `f` on every element. -/
def Vec3.map {α β : Type} (f : α → β) (v : Vec3 α) : Vec3 β := ⟨f v.v0, f v.v1, f v.v2⟩

/-- The integers a matrix of 16-bit elements holds, `sint` of each (R18, R47 (c)). -/
def Mat3.toInts (M : Mat3 Elem) : Mat3 Int := M.map BitVec.toInt

/-- The integers a vector of 16-bit elements holds (R20, R47 (c)). -/
def Vec3.toInts (v : Vec3 Elem) : Vec3 Int := v.map BitVec.toInt

namespace Machine

/-- The scalar operand a = sint(L.OPA) (R47 (b)). -/
def Latch.scalar (L : Latch) : Int := L.opa.toInt

/-- L.MAT_A as integers (R47 (c)). -/
def Latch.intsA (L : Latch) : Mat3 Int := L.matA.toInts

/-- L.MAT_B as integers (R47 (c)). -/
def Latch.intsB (L : Latch) : Mat3 Int := L.matB.toInts

/-- L.VEC as integers (R47 (c)). -/
def Latch.intsV (L : Latch) : Vec3 Int := L.vec.toInts

/-- A residue as a 32-bit result register holds it, `zext_32` (R21, R22). -/
def resultWord (r : Int) : Word := BitVec.ofInt 32 r

/-- Residues as MAT_R holds them, 8 bits unsigned each (R24). -/
def resultMatrix (M : Mat3 Int) : Mat3 ResElem := M.map (BitVec.ofInt 8)

/-- Residues as VEC_R holds them, 8 bits unsigned each (R25). -/
def resultVector (v : Vec3 Int) : Vec3 ResElem := v.map (BitVec.ofInt 8)

/-- The raw determinant as a 64-bit two's complement word D (R23, R68). -/
def determinantWord (d : Int) : BitVec 64 := BitVec.ofInt 64 d

/-- `D[31:0]`, what RES_DET_LO holds (R23). -/
def lowWord (D : BitVec 64) : Word := D.extractLsb' 0 32

/-- `D[63:32]`, what RES_DET_HI holds (R23). -/
def highWord (D : BitVec 64) : Word := D.extractLsb' 32 32

/-- D = {RES_DET_HI, RES_DET_LO} (R23). -/
def Block.resDet (b : Block) : BitVec 64 := b.resDetHi ++ b.resDetLo

/-- What a write of a 32-bit word stores in a 16-bit element: `wdata[15:0]` (R18). -/
def storeElem (wdata : Word) : Elem := wdata.extractLsb' 0 16

/-- What a read of a 16-bit element returns: `sext_32` (R18). -/
def loadElem (e : Elem) : Word := e.signExtend 32

/-- What a read of an 8-bit result element returns: `zext_32` (R24, R25). -/
def loadResElem (e : ResElem) : Word := e.setWidth 32

/-- Byte lane k of a word, `w[8k+7:8k]`, which belongs to byte address `addr + k` (R37). -/
def byteLane (w : Word) (k : Nat) : BitVec 8 := w.extractLsb' (8 * k) 8

end Machine
end Sys2Proof
end

