-- ==== Sys2Proof/Machine/Arith.lean ====
section
/-! DEFINITION. The functions of the spec over exact integers (00_scope.md R6, R7): modular arithmetic
(40_modular_arith.md R57-R59), 3×3 matrix algebra (41_matrix_algebra.md R62-R67) and the CRT key inverter
(42_crt_inverter.md R73, R76). -/

namespace Sys2Proof.Machine

/-! ## Modular arithmetic -/

/-- `positiveMod(v, m)`: for m ≥ 1 the unique r with 0 ≤ r < m and m | (v − r) (R7, R57). -/
def positiveMod (v : Int) (m : Nat) : Int := v % (m : Int)

/-- The visible part of `extendedGcd(a', m)`: g = gcd(a', m) with a' = a mod m (R58). The Bézout coefficients are
never visible and are not computed. -/
def residueGcd (a : Int) (m : Nat) : Nat := Nat.gcd (positiveMod a m).toNat m

/-- `modularInverse(a, m)` (R59): `none` when gcd(a mod m, m) ≠ 1; otherwise the unique x with 0 ≤ x < m and
(a'·x) mod m = 1 mod m, found by trying every x. -/
def modularInverse (a : Int) (m : Nat) : Option Nat :=
  if residueGcd a m ≠ 1 then none
  else (List.range m).find? (fun (x : Nat) => positiveMod (positiveMod a m * (x : Int)) m == positiveMod 1 m)

/-! ## Matrix algebra -/

/-- `determinant(M)`: cofactor expansion along the first row, exact (R62). -/
def determinant (M : Mat3 Int) : Int :=
  M.m0 * (M.m4 * M.m8 - M.m5 * M.m7) - M.m1 * (M.m3 * M.m8 - M.m5 * M.m6) + M.m2 * (M.m3 * M.m7 - M.m4 * M.m6)

/-- `adjugate(M)`: the transpose of the cofactor matrix, exact (R63). -/
def adjugate (M : Mat3 Int) : Mat3 Int :=
  { m0 := M.m4 * M.m8 - M.m5 * M.m7
    m1 := -(M.m1 * M.m8 - M.m2 * M.m7)
    m2 := M.m1 * M.m5 - M.m2 * M.m4
    m3 := -(M.m3 * M.m8 - M.m5 * M.m6)
    m4 := M.m0 * M.m8 - M.m2 * M.m6
    m5 := -(M.m0 * M.m5 - M.m2 * M.m3)
    m6 := M.m3 * M.m7 - M.m4 * M.m6
    m7 := -(M.m0 * M.m7 - M.m1 * M.m6)
    m8 := M.m0 * M.m4 - M.m1 * M.m3 }

/-- `reduceMod(M, m)`: `positiveMod` element-wise (R65). -/
def reduceMod (M : Mat3 Int) (m : Nat) : Mat3 Int := M.map (fun e => positiveMod e m)

/-- `scaleMod(M, s, m)`: every element times s, reduced modulo m, the product exact (R66). -/
def scaleMod (M : Mat3 Int) (s : Int) (m : Nat) : Mat3 Int := M.map (fun e => positiveMod (e * s) m)

/-- `matVecMod(M, v, m)`: v a column vector on the right, each component reduced modulo m (R67). -/
def matVecMod (M : Mat3 Int) (v : Vec3 Int) (m : Nat) : Vec3 Int :=
  { v0 := positiveMod (M.m0 * v.v0 + M.m1 * v.v1 + M.m2 * v.v2) m
    v1 := positiveMod (M.m3 * v.v0 + M.m4 * v.v1 + M.m5 * v.v2) m
    v2 := positiveMod (M.m6 * v.v0 + M.m7 * v.v1 + M.m8 * v.v2) m }

/-! ## CRT -/

/-- `crt26(a, b)` = (13·(a mod 2) + 14·(b mod 13)) mod 26 (R73). -/
def crt26 (a b : Int) : Int := positiveMod (13 * positiveMod a 2 + 14 * positiveMod b 13) 26

/-- `Invert26(K)`, the five steps of R76: the inverse matrix, or the code of the first check that fails, modulus
2 before modulus 13 (R77). -/
def invert26 (K : Mat3 Int) : Except ResultCode (Mat3 Int) :=
  let d := determinant K
  let A := adjugate K
  if positiveMod d 2 = 0 then .error .noninvMod2
  else if positiveMod d 13 = 0 then .error .noninvMod13
  else
    match modularInverse (positiveMod d 2) 2, modularInverse (positiveMod d 13) 13 with
    | some d2inv, some d13inv =>
      .ok (Mat3.zipWith crt26 (scaleMod (reduceMod A 2) (d2inv : Int) 2)
        (scaleMod (reduceMod A 13) (d13inv : Int) 13))
    | _, _ => .error .modinvAbsent

end Sys2Proof.Machine
end

