-- ==== Sys2Proof/WellFormed.lean ====
section
/-! DEFINITION. Which terms of `Instr` a command word can hold (the M field has 8 bits, R5 `M_W`, R46), and
which of those the assembler spells (m in 1..255, R55). A word with m = 0 is well formed: "well formed, but
its operand is illegal" (R52). Assumption log 8. -/

namespace Sys2Proof

/-- The modulus operand of a command that uses m; `none` for the three that fix their moduli (R47, R48). -/
def Instr.modulus? : Instr → Option Nat
  | .pmod m => some m
  | .modinv m => some m
  | .detm m => some m
  | .adjm m => some m
  | .redm m => some m
  | .scalem m => some m
  | .crt => none
  | .matvec => none
  | .inv26 => none

/-- The modulus fits the 8-bit M field: m is in 0..255 (R47 (a)). -/
def Instr.wellFormed (i : Instr) : Bool :=
  match i.modulus? with
  | some m => decide (m < 256)
  | none => true

/-- The command as the assembler spells it: "m is a decimal literal or a `0x` hexadecimal literal in 1..255"
(R55). These are the commands whose operand is legal. -/
def Instr.legal (i : Instr) : Bool :=
  match i.modulus? with
  | some m => decide (1 ≤ m ∧ m < 256)
  | none => true

end Sys2Proof
end

