-- ==== Sys2Proof/Decode.lean ====
section
/-! DEFINITION. Command words: the one format (30_encoding.md R46), the decoder, total on all 2^32 words and
rejecting by name (R49-R51, R53, R54), the encoder (R55), and the rows of spec/opcode_table.json. -/

namespace Sys2Proof

/-! ## The fields of a command word (R46) -/

/-- `Cmd[7:0]`, OPCODE. -/
def opcodeField (w : Word) : BitVec 8 := w.extractLsb' 0 8

/-- `Cmd[15:8]`, the modulus immediate M. -/
def modulusField (w : Word) : BitVec 8 := w.extractLsb' 8 8

/-- `Cmd[31:16]`, RSV. -/
def reservedField (w : Word) : BitVec 16 := w.extractLsb' 16 16

/-- The word with RSV = 0 and the given OPCODE and M: `(opcode) | (m << 8)` (R55). -/
def commandWord (opcode m : BitVec 8) : Word := 0#16 ++ m ++ opcode

/-! ## Decoding -/

/-- Why a word is no command: each case completes with ILLEGAL_COMMAND (R53, checks 1 to 3). -/
inductive DecodeError where
  /-- OPCODE is 0x00 or in 0x0A..0xFF (R49). -/
  | reservedOpcode
  /-- RSV is not 0 (R50). -/
  | reservedFieldNotZero
  /-- M is not 0 on CRT, MATVEC or INV26 (R51). -/
  | modulusFieldNotZero
deriving DecidableEq, Repr

/-- The opcode map: the command an OPCODE selects, with M = m (R48); `none` for a reserved opcode (R49). -/
def opcodeMap (opcode m : Nat) : Option Instr :=
  match opcode with
  | 0x01 => some (.pmod m)
  | 0x02 => some (.modinv m)
  | 0x03 => some (.detm m)
  | 0x04 => some (.adjm m)
  | 0x05 => some (.redm m)
  | 0x06 => some (.scalem m)
  | 0x07 => some .crt
  | 0x08 => some .matvec
  | 0x09 => some .inv26
  | _ => none

/-- Checks 1 to 3 of `Decode(w)`, in the order of R53. Check 4 (m = 0, R52) is the command's own: a word with
m = 0 is well formed. -/
def decode (w : Word) : Except DecodeError Instr :=
  match opcodeMap (opcodeField w).toNat (modulusField w).toNat with
  | none => .error .reservedOpcode
  | some i =>
    if reservedField w ≠ 0 then .error .reservedFieldNotZero
    else if i.modulus? = none ∧ modulusField w ≠ 0 then .error .modulusFieldNotZero
    else .ok i

/-! ## Encoding -/

/-- The OPCODE of a command (R48). -/
def Instr.opcode : Instr → BitVec 8
  | .pmod _ => 0x01
  | .modinv _ => 0x02
  | .detm _ => 0x03
  | .adjm _ => 0x04
  | .redm _ => 0x05
  | .scalem _ => 0x06
  | .crt => 0x07
  | .matvec => 0x08
  | .inv26 => 0x09

/-- The command word of an instruction: OPCODE, M = m (0 where the command has none), RSV = 0 (R46, R55). -/
def encode (i : Instr) : Word :=
  commandWord i.opcode (BitVec.ofNat 8 (i.modulus?.getD 0))

/-! ## The opcode table -/

/-- A row of spec/opcode_table.json: a word is the row's when `w &&& mask = value`. -/
structure OpcodeRow where
  mnemonic : String
  value : Word
  mask : Word
deriving DecidableEq, Repr

/-- The nine rows of spec/opcode_table.json. -/
def opcodeTable : List OpcodeRow :=
  [ ⟨"PMOD", 0x00000001, 0xFFFF00FF⟩,
    ⟨"MODINV", 0x00000002, 0xFFFF00FF⟩,
    ⟨"DETM", 0x00000003, 0xFFFF00FF⟩,
    ⟨"ADJM", 0x00000004, 0xFFFF00FF⟩,
    ⟨"REDM", 0x00000005, 0xFFFF00FF⟩,
    ⟨"SCALEM", 0x00000006, 0xFFFF00FF⟩,
    ⟨"CRT", 0x00000007, 0xFFFFFFFF⟩,
    ⟨"MATVEC", 0x00000008, 0xFFFFFFFF⟩,
    ⟨"INV26", 0x00000009, 0xFFFFFFFF⟩ ]

/-- A word is one the row's match and mask describe. -/
def OpcodeRow.covers (r : OpcodeRow) (w : Word) : Bool := w &&& r.mask == r.value

/-- The mnemonic of a command (R48). -/
def Instr.mnemonic : Instr → String
  | .pmod _ => "PMOD"
  | .modinv _ => "MODINV"
  | .detm _ => "DETM"
  | .adjm _ => "ADJM"
  | .redm _ => "REDM"
  | .scalem _ => "SCALEM"
  | .crt => "CRT"
  | .matvec => "MATVEC"
  | .inv26 => "INV26"

/-- The instruction the decoder reads from an instruction whose low `nbits` bits are `w` and whose other bits
are 0. A command is one 32-bit word, presented whole to CMD (R16, R46): there are no instruction bytes to lay
out ("it has no instruction byte order", R37). Assumption log 9. -/
def decodeTableWord (nbits w : Nat) : Option Instr :=
  let bits := w % 2 ^ nbits
  if bits < 2 ^ 32 then
    match decode (BitVec.ofNat 32 bits) with
    | .ok i => some i
    | .error _ => none
  else none

end Sys2Proof
end

