-- ==== Sys2Proof/Machine/Flags.lean ====
section
/-! DEFINITION. STATUS, CTRL and the interrupt output. The block has no condition codes: "no condition codes or
flags apart from the fields of STATUS" (10_state.md R29). -/

namespace Sys2Proof.Machine

/-- The number of a result code (R15). -/
def ResultCode.code : ResultCode → BitVec 4
  | .ok => 0
  | .noninvMod2 => 1
  | .noninvMod13 => 2
  | .modinvAbsent => 3
  | .noInverse => 4
  | .illegalCommand => 5
  | .illegalOperand => 6

/-- STATUS.BUSY, which always equals L.valid (R26) and is stored as it. Assumption log 12. -/
def Block.busy (b : Block) : Bool := b.latch.valid

/-- STATUS as a read returns it: reserved [31:16], LAST_OP [15:8], RC [7:4], reserved [3], OVR [2], DONE [1],
BUSY [0] (R14). -/
def Block.statusWord (b : Block) : Word :=
  0#16 ++ b.lastOp ++ b.rc.code ++ 0#1 ++ BitVec.ofBool b.ovr ++ BitVec.ofBool b.done ++ BitVec.ofBool b.busy

/-- A write to STATUS: a 1 in bit 1 clears DONE, a 1 in bit 2 clears OVR, every other bit is ignored (R14). -/
def Block.writeStatus (b : Block) (wdata : Word) : Block :=
  { b with done := b.done && !wdata.getLsbD 1, ovr := b.ovr && !wdata.getLsbD 2 }

/-- CTRL as a read returns it: IE in bit 0, the rest 0 (R13). -/
def Block.ctrlWord (b : Block) : Word := 0#31 ++ BitVec.ofBool b.ie

/-- A write to CTRL stores wdata[0] into IE and discards the rest (R13). -/
def Block.writeCtrl (b : Block) (wdata : Word) : Block := { b with ie := wdata.getLsbD 0 }

/-- The interrupt output: `irq = CTRL.IE & STATUS.DONE` (R88). -/
def Block.irq (b : Block) : Bool := b.ie && b.done

end Sys2Proof.Machine
end

