-- ==== Sys2Proof/Machine/RegisterMap.lean ====
section
/-! DEFINITION. The register map of the 512-byte window (10_state.md R11, 20_memory.md R33, R38). -/

namespace Sys2Proof.Machine

/-- The registers of the port, each under its name of R11. -/
inductive Reg where
  | id
  | ctrl
  | status
  | cmd
  | opa
  | matA (i : Fin 9)
  | matB (i : Fin 9)
  | vec (i : Fin 3)
  | resScalar
  | resGcd
  | resDetLo
  | resDetHi
  | matR (i : Fin 9)
  | vecR (i : Fin 3)
deriving DecidableEq, Repr

/-- The byte offset of a register; element i of an array at base B is at B + 4·i (R11). -/
def Reg.offset : Reg → Nat
  | .id => 0x000
  | .ctrl => 0x004
  | .status => 0x008
  | .cmd => 0x00C
  | .opa => 0x010
  | .matA i => 0x040 + 4 * i.val
  | .matB i => 0x080 + 4 * i.val
  | .vec i => 0x0C0 + 4 * i.val
  | .resScalar => 0x100
  | .resGcd => 0x104
  | .resDetLo => 0x108
  | .resDetHi => 0x10C
  | .matR i => 0x140 + 4 * i.val
  | .vecR i => 0x180 + 4 * i.val

/-- The port address of a register. -/
def Reg.addr (r : Reg) : Addr := BitVec.ofNat 9 r.offset

/-- The elements of a nine-element register array. -/
def allNine (f : Fin 9 → Reg) : List Reg := [f 0, f 1, f 2, f 3, f 4, f 5, f 6, f 7, f 8]

/-- The elements of a three-element register array. -/
def allThree (f : Fin 3 → Reg) : List Reg := [f 0, f 1, f 2]

/-- Every register of R11, in the order of the table. -/
def Reg.all : List Reg :=
  [.id, .ctrl, .status, .cmd, .opa] ++ allNine .matA ++ allNine .matB ++ allThree .vec
    ++ [.resScalar, .resGcd, .resDetLo, .resDetHi] ++ allNine .matR ++ allThree .vecR

/-- The register at an address; `none` where R11 lists none, which for an aligned address is a reserved one
(R38). -/
def Reg.ofAddr (a : Addr) : Option Reg := Reg.all.find? (fun r => r.addr == a)

/-- `addr[1:0] = 0b00` (R34, R35). -/
def aligned (a : Addr) : Bool := a.extractLsb' 0 2 == 0#2

/-- A result register, whose value is unspecified while a command is in flight (R21-R25, R104). -/
def Reg.isResult : Reg → Bool
  | .resScalar => true
  | .resGcd => true
  | .resDetLo => true
  | .resDetHi => true
  | .matR _ => true
  | .vecR _ => true
  | .id => false
  | .ctrl => false
  | .status => false
  | .cmd => false
  | .opa => false
  | .matA _ => false
  | .matB _ => false
  | .vec _ => false

/-- An operand register: one that a write simply stores into (R17-R20). -/
def Reg.isOperand : Reg → Bool
  | .opa => true
  | .matA _ => true
  | .matB _ => true
  | .vec _ => true
  | .id => false
  | .ctrl => false
  | .status => false
  | .cmd => false
  | .resScalar => false
  | .resGcd => false
  | .resDetLo => false
  | .resDetHi => false
  | .matR _ => false
  | .vecR _ => false

end Sys2Proof.Machine
end

