-- ==== Sys2Proof/Machine/Ops.lean ====
section
/-! DEFINITION. The operations of the block: acceptance and overrun of a command (60_exceptions.md R81, R82),
completion (R84, R85), register reads and writes (10_state.md R12-R25), the two port transactions (20_memory.md
R34-R36) and reset (70_reset_and_hazards.md R100).

The block has no traps: "A failing command's "entry" is its completion" (R91). So `Block.complete` is the one
operation that stands for taking an exception, and there is none for returning from one (R92): the host clears
DONE or issues the next command. -/

namespace Sys2Proof.Machine

/-! ## The life of a command -/

/-- Acceptance of command word `w` (R81): the command and the operand registers go into L; BUSY reads 1; DONE and
RC are cleared; LAST_OP and the CMD readback take the word. OVR, CTRL, operands and results are unchanged. -/
def Block.accept (b : Block) (w : Word) : Block :=
  { b with
    latch := { valid := true, cmd := w, opa := b.opa, matA := b.matA, matB := b.matB, vec := b.vec }
    done := false
    rc := .ok
    lastOp := opcodeField w
    cmd := w }

/-- A command written while BUSY = 1 is dropped: "The only change is STATUS.OVR ← 1" (R82). -/
def Block.dropCommand (b : Block) : Block := { b with ovr := true }

/-- A host write of `w` to CMD (R16): accepted when idle, dropped when busy. -/
def Block.presentCommand (b : Block) (w : Word) : Block :=
  if b.busy then b.dropCommand else b.accept w

/-- The result registers a completion writes; `none` leaves a register as it is (R85). -/
structure Writes where
  resScalar : Option Word := none
  resGcd : Option Word := none
  resDet : Option (BitVec 64) := none
  matR : Option (Mat3 ResElem) := none
  vecR : Option (Vec3 ResElem) := none
deriving DecidableEq, Repr

/-- `Exec(L) = (rc, writes)` (R83). -/
structure Completion where
  rc : ResultCode
  writes : Writes := {}
deriving DecidableEq, Repr

/-- `raise <Code>`: the computation ends with that code and no result (R9, R85). -/
def Completion.failed (rc : ResultCode) : Completion := { rc := rc }

/-- "apply every register write in `writes` at once" (R84). -/
def Block.applyWrites (b : Block) (w : Writes) : Block :=
  { b with
    resScalar := w.resScalar.getD b.resScalar
    resGcd := w.resGcd.getD b.resGcd
    resDetLo := (w.resDet.map lowWord).getD b.resDetLo
    resDetHi := (w.resDet.map highWord).getD b.resDetHi
    matR := w.matR.getD b.matR
    vecR := w.vecR.getD b.vecR }

/-- Completion (R84): the results at once, then RC, L.valid ← 0 and DONE ← 1, in one atomic step. -/
def Block.complete (b : Block) (c : Completion) : Block :=
  let r := b.applyWrites c.writes
  { r with rc := c.rc, latch := { b.latch with valid := false }, done := true }

/-- The same on the whole machine; nothing outside the block changes. -/
def State.complete (s : State) (c : Completion) : State := { s with block := s.block.complete c }

/-- Check 4 of `Decode(w)` (R53): modulus 0 completes with ILLEGAL_OPERAND and writes no result (R52). -/
def guardModulus (m : Nat) (c : Completion) : Completion :=
  if m = 0 then Completion.failed .illegalOperand else c

/-! ## The registers -/

/-- The value a register holds, as a read returns it while no command is in flight (R12-R25). -/
def Block.readReg (b : Block) : Reg → Word
  | .id => 0x48433301
  | .ctrl => b.ctrlWord
  | .status => b.statusWord
  | .cmd => b.cmd
  | .opa => b.opa
  | .matA i => loadElem (b.matA.get i)
  | .matB i => loadElem (b.matB.get i)
  | .vec i => loadElem (b.vec.get i)
  | .resScalar => b.resScalar
  | .resGcd => b.resGcd
  | .resDetLo => b.resDetLo
  | .resDetHi => b.resDetHi
  | .matR i => loadResElem (b.matR.get i)
  | .vecR i => loadResElem (b.vecR.get i)

/-- The write rule of a register (R12-R25): store, ignore, write 1 to clear, or command presentation. -/
def Block.writeReg (b : Block) (r : Reg) (wdata : Word) : Block :=
  match r with
  | .id => b
  | .ctrl => b.writeCtrl wdata
  | .status => b.writeStatus wdata
  | .cmd => b.presentCommand wdata
  | .opa => { b with opa := wdata }
  | .matA i => { b with matA := b.matA.set i (storeElem wdata) }
  | .matB i => { b with matB := b.matB.set i (storeElem wdata) }
  | .vec i => { b with vec := b.vec.set i (storeElem wdata) }
  | .resScalar => b
  | .resGcd => b
  | .resDetLo => b
  | .resDetHi => b
  | .matR _ => b
  | .vecR _ => b

/-! ## The port -/

/-- The word at an aligned address of the window, outside any access: 0 at a reserved one (R38). -/
def Block.wordAt (b : Block) (a : Addr) : Word :=
  match Reg.ofAddr a with
  | some r => b.readReg r
  | none => 0

/-- The byte of the window at byte address `a`: lane a mod 4 of the word that holds it (R37). The window is the
only address space (R33), so this is the model's read of one byte. Assumption log 15. -/
def Block.byteAt (b : Block) (a : Addr) : BitVec 8 :=
  byteLane (b.wordAt (BitVec.ofNat 9 (a.toNat / 4 * 4))) (a.toNat % 4)

/-- `MemRead(addr, 4)` (R34). A misaligned read is a bus error with `rdata` = 0 (R36); a reserved address reads
0 (R38); a result register read while BUSY = 1 returns a fresh unspecified word (R104). No read changes the
block (R39). -/
def State.memRead (s : State) (a : Addr) : State :=
  if !aligned a then { s with port := .readDone 0 true }
  else
    match Reg.ofAddr a with
    | none => { s with port := .readDone 0 false }
    | some r =>
      if r.isResult && s.block.busy then
        { s with port := .readDone (Config.freeRead s.draws) false, draws := s.draws + 1 }
      else { s with port := .readDone (s.block.readReg r) false }

/-- `MemWrite(addr, 4, v)` with its strobes (R35). A misaligned or sub-word write is a bus error and writes
nothing (R36); a write to a reserved address is ignored (R38). -/
def State.memWrite (s : State) (a : Addr) (wdata : Word) (wstrb : Strobes) : State :=
  if !aligned a || wstrb != 0b1111#4 then { s with port := .writeDone true }
  else
    match Reg.ofAddr a with
    | none => { s with port := .writeDone false }
    | some r => { s with block := s.block.writeReg r wdata, port := .writeDone false }

/-- Reset in effect (R100, R101): every piece of the block's state takes its reset value, a command in flight is
abandoned, the port takes no access. The host's remaining accesses, the turns and the count of free values are
not the block's and stay. Assumption log 6. -/
def State.resetBlock (s : State) : State := { s with block := Block.reset, port := .idle }

/-- A step in which the port completes no access: `ready` = 0 (R32). -/
def State.noAccess (s : State) : State := { s with port := .idle }

end Sys2Proof.Machine
end

