-- ==== Sys2Proof/Machine/Crt.lean ====
section
/-! DEFINITION. The CRT recombiner and the key inverter, CRT and INV26 (42_crt_inverter.md R75, R80). -/

namespace Sys2Proof.Machine

/-- What CRT computes from L (R75): `crt26` of the elements of equal index. -/
def crtResult (L : Latch) : Completion :=
  { rc := .ok, writes := { matR := some (resultMatrix (Mat3.zipWith crt26 L.intsA L.intsB)) } }

/-- CRT (R75). -/
def execCrt (s : State) : Host.Outcome State Fault Refusal :=
  .next (s.complete (crtResult s.block.latch))

/-- What INV26 computes from L (R80): the inverse of MAT_A mod 26, or a code and no result. -/
def inv26Result (L : Latch) : Completion :=
  match invert26 L.intsA with
  | .error rc => Completion.failed rc
  | .ok R => { rc := .ok, writes := { matR := some (resultMatrix R) } }

/-- INV26 (R80). -/
def execInv26 (s : State) : Host.Outcome State Fault Refusal :=
  .next (s.complete (inv26Result s.block.latch))

end Sys2Proof.Machine
end

