-- ==== Sys2Proof/Machine/MatrixAlgebra.lean ====
section
/-! DEFINITION. The matrix commands DETM, ADJM, REDM, SCALEM and MATVEC (41_matrix_algebra.md R68-R72). -/

namespace Sys2Proof.Machine

/-- What DETM computes from L (R68): the raw determinant and its residue. -/
def detmResult (m : Nat) (L : Latch) : Completion :=
  let d := determinant L.intsA
  guardModulus m
    { rc := .ok
      writes := { resDet := some (determinantWord d), resScalar := some (resultWord (positiveMod d m)) } }

/-- DETM m (R68). -/
def execDetm (m : Nat) (s : State) : Host.Outcome State Fault Refusal :=
  .next (s.complete (detmResult m s.block.latch))

/-- What ADJM computes from L (R69): the adjugate, reduced. -/
def adjmResult (m : Nat) (L : Latch) : Completion :=
  guardModulus m
    { rc := .ok, writes := { matR := some (resultMatrix (reduceMod (adjugate L.intsA) m)) } }

/-- ADJM m (R69). -/
def execAdjm (m : Nat) (s : State) : Host.Outcome State Fault Refusal :=
  .next (s.complete (adjmResult m s.block.latch))

/-- What REDM computes from L (R70): MAT_A, reduced. -/
def redmResult (m : Nat) (L : Latch) : Completion :=
  guardModulus m { rc := .ok, writes := { matR := some (resultMatrix (reduceMod L.intsA m)) } }

/-- REDM m (R70). -/
def execRedm (m : Nat) (s : State) : Host.Outcome State Fault Refusal :=
  .next (s.complete (redmResult m s.block.latch))

/-- What SCALEM computes from L (R71): MAT_A times the scalar, exact, then reduced. -/
def scalemResult (m : Nat) (L : Latch) : Completion :=
  guardModulus m { rc := .ok, writes := { matR := some (resultMatrix (scaleMod L.intsA L.scalar m)) } }

/-- SCALEM m (R71). -/
def execScalem (m : Nat) (s : State) : Host.Outcome State Fault Refusal :=
  .next (s.complete (scalemResult m s.block.latch))

/-- What MATVEC computes from L (R72): MAT_A times VEC modulo 26. -/
def matvecResult (L : Latch) : Completion :=
  { rc := .ok, writes := { vecR := some (resultVector (matVecMod L.intsA L.intsV 26)) } }

/-- MATVEC (R72). -/
def execMatvec (s : State) : Host.Outcome State Fault Refusal :=
  .next (s.complete (matvecResult s.block.latch))

end Sys2Proof.Machine
end

