-- ==== Sys2Proof/Machine/ModularArith.lean ====
section
/-! DEFINITION. The modular-arithmetic commands PMOD and MODINV (40_modular_arith.md R60, R61). -/

namespace Sys2Proof.Machine

/-- What PMOD computes from L (R60). -/
def pmodResult (m : Nat) (L : Latch) : Completion :=
  guardModulus m { rc := .ok, writes := { resScalar := some (resultWord (positiveMod L.scalar m)) } }

/-- PMOD m (R60). -/
def execPmod (m : Nat) (s : State) : Host.Outcome State Fault Refusal :=
  .next (s.complete (pmodResult m s.block.latch))

/-- What MODINV computes from L (R61): RES_GCD always, RES_SCALAR when an inverse exists. -/
def modinvResult (m : Nat) (L : Latch) : Completion :=
  let g := some (resultWord (residueGcd L.scalar m : Int))
  guardModulus m
    (match modularInverse L.scalar m with
    | none => { rc := .noInverse, writes := { resGcd := g } }
    | some x => { rc := .ok, writes := { resGcd := g, resScalar := some (resultWord (x : Int)) } })

/-- MODINV m (R61). -/
def execModinv (m : Nat) (s : State) : Host.Outcome State Fault Refusal :=
  .next (s.complete (modinvResult m s.block.latch))

end Sys2Proof.Machine
end

