-- ==== Sys2Proof/Machine/Dispatch.lean ====
section
/-! DEFINITION. What each command does when the core completes it (60_exceptions.md R83, R84). -/

namespace Sys2Proof.Machine

/-- The completion of command `i` in state `s`. -/
def exec (i : Instr) (s : State) : Host.Outcome State Fault Refusal :=
  match i with
  | .pmod m => Sys2Proof.Machine.execPmod m s
  | .modinv m => Sys2Proof.Machine.execModinv m s
  | .detm m => Sys2Proof.Machine.execDetm m s
  | .adjm m => Sys2Proof.Machine.execAdjm m s
  | .redm m => Sys2Proof.Machine.execRedm m s
  | .scalem m => Sys2Proof.Machine.execScalem m s
  | .crt => Sys2Proof.Machine.execCrt s
  | .matvec => Sys2Proof.Machine.execMatvec s
  | .inv26 => Sys2Proof.Machine.execInv26 s

end Sys2Proof.Machine
end

