-- ==== Sys2Proof/Machine/Turns.lean ====
section
/-! DEFINITION. What each agent does in its turn: the core completes the command in flight (60_exceptions.md
R84), the host makes one access (10_state.md R10), or reset is in effect (70_reset_and_hazards.md R100). -/

namespace Sys2Proof.Machine

/-- The core's only step (R84): decode the latched word, then complete. A word that is no command completes with
ILLEGAL_COMMAND and writes no result (R49-R51). -/
def completeLatched (s : State) : Host.Outcome State Fault Refusal :=
  match decode s.block.latch.cmd with
  | .ok i => exec i s
  | .error _ => .next (s.complete (Completion.failed .illegalCommand))

/-- The core's turn. With no command in flight the core has no step, and nothing changes (assumption log 2). -/
def coreTurn (s : State) : Host.Outcome State Fault Refusal :=
  if s.block.latch.valid then completeLatched s.noAccess else .next s.noAccess

/-- The host's turn: the next access, which leaves the list, or one more poll (R10, R41, R56). -/
def hostTurn (s : State) : Host.Outcome State Fault Refusal :=
  match s.host with
  | [] => .next s.noAccess
  | .read a :: ops => .next ({ s with host := ops }.memRead a)
  | .write a wdata wstrb :: ops => .next ({ s with host := ops }.memWrite a wdata wstrb)
  | .waitNotBusy :: ops =>
    if s.block.statusWord.getLsbD 0 then .next (s.memRead Reg.status.addr)
    else .next ({ s with host := ops }.memRead Reg.status.addr)
  | .waitIrq :: ops => if s.block.irq then .next { s with host := ops }.noAccess else .next s.noAccess

/-- The move of the agent whose turn it is. -/
def takeTurn (t : Turn) (s : State) : Host.Outcome State Fault Refusal :=
  match t with
  | .host => hostTurn s
  | .core => coreTurn s
  | .reset => .next s.resetBlock

/-- Who moves: the first of `turns`; with none left, the core while a command is in flight ("eventually taken",
R110), else the host (assumption log 2). -/
def nextTurn (s : State) : Turn :=
  match s.turns with
  | t :: _ => t
  | [] => if s.block.latch.valid then .core else .host

end Sys2Proof.Machine
end

