-- ==== Sys2Proof/Machine/Step.lean ====
section
/-! DEFINITION. One step of the machine: one host access, one completion, or one reset (20_memory.md R41). -/

namespace Sys2Proof.Machine

/-- The step: the agent whose turn it is moves, and the turn is used up. -/
def step (s : State) : Host.Outcome State Fault Refusal :=
  takeTurn (nextTurn s) { s with turns := s.turns.tail }

/-- `s` with the command word `w` (bits above `nbits` zero) where the core takes its next command: accepted into
L just as a write to CMD is (R81), with the core to move next. There is no other fetch (R28, R43). Assumption
log 9. -/
def State.withFetchWord (s : State) (nbits w : Nat) : State :=
  { s with
    block := s.block.accept (BitVec.ofNat 32 (w % 2 ^ nbits))
    turns := .core :: s.turns }

end Sys2Proof.Machine
end

