-- ==== Sys2Proof/Machine/HostProgram.lean ====
section
/-! DEFINITION. How commands and host programs are written (30_encoding.md R55, R56): the pseudo-instructions
with their exact expansions into accesses, and the assembler's lines. -/

namespace Sys2Proof.Machine

/-- A line of a host program (R56). -/
inductive HostLine where
  /-- `WR NAME, v`. -/
  | wr (r : Reg) (v : Word)
  /-- `RD NAME`. -/
  | rd (r : Reg)
  /-- `ISSUE cmd`. -/
  | issue (i : Instr)
  /-- `WAIT`. -/
  | wait
  /-- `LDA v0, ..., v8`. -/
  | lda (v : Mat3 Word)
  /-- `LDB v0, ..., v8`. -/
  | ldb (v : Mat3 Word)
  /-- `LDV v0, v1, v2`. -/
  | ldv (v : Vec3 Word)
  /-- `CLRST`. -/
  | clrst
  /-- `RUN cmd`. -/
  | run (i : Instr)
deriving DecidableEq, Repr

/-- The word a value of a listing stands for: a signed decimal is its 32-bit two's complement word (R56). -/
def valueWord (v : Int) : Word := BitVec.ofInt 32 v

/-- `MemWrite(offset(NAME), 4, v)` (R35, R56). -/
def wrOp (r : Reg) (v : Word) : HostOp := .write r.addr v 0b1111#4

/-- `WR B[0], v0` ... `WR B[8], v8`, in index order (R56). -/
def wrNine (base : Fin 9 → Reg) (v : Mat3 Word) : List HostOp :=
  [wrOp (base 0) v.m0, wrOp (base 1) v.m1, wrOp (base 2) v.m2, wrOp (base 3) v.m3, wrOp (base 4) v.m4,
    wrOp (base 5) v.m5, wrOp (base 6) v.m6, wrOp (base 7) v.m7, wrOp (base 8) v.m8]

/-- The expansion of a line (R56). -/
def HostLine.expand : HostLine → List HostOp
  | .wr r v => [wrOp r v]
  | .rd r => [.read r.addr]
  | .issue i => [wrOp .cmd (encode i)]
  | .wait => [.waitNotBusy]
  | .lda v => wrNine .matA v
  | .ldb v => wrNine .matB v
  | .ldv v => [wrOp (.vec 0) v.v0, wrOp (.vec 1) v.v1, wrOp (.vec 2) v.v2]
  | .clrst => [wrOp .status 0x00000006]
  | .run i => [wrOp .cmd (encode i), .waitNotBusy]

/-- A whole program's accesses, in order. -/
def expandProgram (p : List HostLine) : List HostOp := p.flatMap HostLine.expand

/-! ## Assembler lines (R55)

The text of a line is a list of characters. The spec gives the words, the literals and the encoding; the
single space, capitals alone in mnemonics and the leading zeros of a literal are a DESIGN CHOICE, assumption
log 14. -/

/-- The value of a decimal digit. -/
def decDigit (c : Char) : Option Nat :=
  if 48 ≤ c.toNat ∧ c.toNat ≤ 57 then some (c.toNat - 48) else none

/-- The value of a hexadecimal digit, of either case. -/
def hexDigit (c : Char) : Option Nat :=
  if 48 ≤ c.toNat ∧ c.toNat ≤ 57 then some (c.toNat - 48)
  else if 65 ≤ c.toNat ∧ c.toNat ≤ 70 then some (c.toNat - 55)
  else if 97 ≤ c.toNat ∧ c.toNat ≤ 102 then some (c.toNat - 87)
  else none

/-- The digits read so far are worth `acc`; read the rest. -/
def readDigits (base : Nat) (digit : Char → Option Nat) : List Char → Nat → Option Nat
  | [], acc => some acc
  | c :: cs, acc =>
    match digit c with
    | some d => readDigits base digit cs (base * acc + d)
    | none => none

/-- "a decimal literal or a `0x` hexadecimal literal" (R55). -/
def readLiteral : List Char → Option Nat
  | [] => none
  | ['0', 'x'] => none
  | '0' :: 'x' :: cs => readDigits 16 hexDigit cs 0
  | cs => readDigits 10 decDigit cs 0

/-- The command of a mnemonic that takes the modulus m (R55). -/
def modulusCommand (name : List Char) (m : Nat) : Option Instr :=
  if name = ['P', 'M', 'O', 'D'] then some (.pmod m)
  else if name = ['M', 'O', 'D', 'I', 'N', 'V'] then some (.modinv m)
  else if name = ['D', 'E', 'T', 'M'] then some (.detm m)
  else if name = ['A', 'D', 'J', 'M'] then some (.adjm m)
  else if name = ['R', 'E', 'D', 'M'] then some (.redm m)
  else if name = ['S', 'C', 'A', 'L', 'E', 'M'] then some (.scalem m)
  else none

/-- The command of a mnemonic that takes no operand (R55). -/
def plainCommand (name : List Char) : Option Instr :=
  if name = ['C', 'R', 'T'] then some .crt
  else if name = ['M', 'A', 'T', 'V', 'E', 'C'] then some .matvec
  else if name = ['I', 'N', 'V', '2', '6'] then some .inv26
  else none

/-- A line cut at its first space: the mnemonic, and the operand's text if there is a space. -/
def splitLine : List Char → List Char × Option (List Char)
  | [] => ([], none)
  | ' ' :: cs => ([], some cs)
  | c :: cs => (c :: (splitLine cs).1, (splitLine cs).2)

/-- The word a line stands for: `MNEMONIC m` with m in 1..255, `MNEMONIC`, or `.word 0x<8 hex digits>` (R55);
`none` where no syntax spells it. -/
def assemble (line : List Char) : Option Word :=
  match splitLine line with
  | (name, none) => (plainCommand name).map encode
  | (name, some operand) =>
    if name = ['.', 'w', 'o', 'r', 'd'] then
      match operand with
      | '0' :: 'x' :: ds =>
        if ds.length = 8 then (readDigits 16 hexDigit ds 0).map (BitVec.ofNat 32) else none
      | _ => none
    else
      match readLiteral operand with
      | some m =>
        match modulusCommand name m with
        | some i => if i.legal then some (encode i) else none
        | none => none
      | none => none

end Sys2Proof.Machine
end

