-- ==== Sys2Proof/Safety.lean ====
section
/-! DEFINITION. What counts as a safe run. The block itself never stops; what can go wrong is the host's: an
access the port refuses (20_memory.md R36), a result read too early (70_reset_and_hazards.md R104), a command
written too early (R105). Also the invariant of the block's state that the rules promise. -/

namespace Sys2Proof.Safety

open Sys2Proof.Machine

/-- A bus error: a misaligned access, or a write with `wstrb` ≠ 0b1111 (R36). -/
def busError : HostOp → Bool
  | .read a => !aligned a
  | .write a _ wstrb => !aligned a || wstrb != 0b1111#4
  | .waitNotBusy => false
  | .waitIrq => false

/-- The host op of the coming step, if it is the host that moves. -/
def comingOp (s : State) : Option HostOp :=
  match nextTurn s with
  | .host => s.host.head?
  | .core => none
  | .reset => none

/-- The host's view of a step: an access with a bus error is a fault of the host's program (R36, X10); every
other step is the block's. Assumption log 5. -/
def hostStep (s : State) : Host.Outcome State Fault Refusal :=
  match comingOp s with
  | some op => if busError op then .fault .hostBusError else step s
  | none => step s

/-- The coming access respects the hazards of 70_reset_and_hazards.md: no bus error (R36), no result register
read while BUSY = 1 (R104), no CMD written while BUSY = 1 (R105). -/
def disciplined (s : State) : Bool :=
  match comingOp s with
  | none => true
  | some op =>
    !busError op &&
      match op with
      | .read a => !(s.block.busy && (Reg.ofAddr a).any Reg.isResult)
      | .write a _ _ => !(s.block.busy && Reg.ofAddr a == some .cmd)
      | .waitNotBusy => true
      | .waitIrq => true

/-! ## Terms of the claims -/

/-- The machine after a completion whose results are those of `b`: RC is the code, BUSY reads 0, DONE is 1, and
nothing else has changed since `b` (R84). -/
def completed (s : State) (b : Block) (rc : ResultCode) : State :=
  { s with block := { b with rc := rc, done := true, latch := { b.latch with valid := false } } }

/-- `s` as the core finds it in its turn: the turn is used up and the port completes no access. -/
def inTurn (s : State) : State := { s with turns := s.turns.tail, port := .idle }

/-- The coming step is the completion of the command in flight (R84). -/
abbrev CompletesNext (s : State) : Prop := nextTurn s = .core ∧ s.block.latch.valid = true

/-- The coming step is the host access or poll `op`, with `ops` to follow (R41). -/
abbrev HostNext (s : State) (op : HostOp) (ops : List HostOp) : Prop := nextTurn s = .host ∧ s.host = op :: ops

/-- The Matrix3 a register array holds, as a matrix of integers: element (r, c) is the signed value of element
3·r + c (R8, R18). -/
def matrixOf (M : Mat3 Elem) : Matrix (Fin 3) (Fin 3) Int := Matrix.of fun r c => (M.entry r c).toInt

/-- The matrix of integers MAT_R holds, its elements unsigned (R24). -/
def resultMatrixOf (M : Mat3 ResElem) : Matrix (Fin 3) (Fin 3) Int :=
  Matrix.of fun r c => ((M.entry r c).toNat : Int)

/-- A Matrix3 of integers as a matrix (R8). -/
def intMatrixOf (M : Mat3 Int) : Matrix (Fin 3) (Fin 3) Int := Matrix.of fun r c => M.entry r c

/-- The column vector VEC holds (R20). -/
def vectorOf (v : Vec3 Elem) : Fin 3 → Int := fun r => (v.get r).toInt

/-- `r` is the residue of `a` modulo `m` (R7): 0 ≤ r < m and m | (a − r). -/
def IsResidue (a : Int) (m r : Nat) : Prop := r < m ∧ (m : Int) ∣ (a - (r : Int))

/-- A command word whose OPCODE is `op` and whose RSV is not 0 completes with ILLEGAL_COMMAND, and every result
register keeps its value (R50). -/
def ReservedBitsRefused (op : BitVec 8) : Prop :=
  ∀ s : State, CompletesNext s → s.block.latch.cmd.extractLsb' 0 8 = op →
    s.block.latch.cmd.extractLsb' 16 16 ≠ 0 →
      step s = .next (completed (inTurn s) s.block .illegalCommand)

/-- The same for a nonzero M field (R51). -/
def ModulusBitsRefused (op : BitVec 8) : Prop :=
  ∀ s : State, CompletesNext s → s.block.latch.cmd.extractLsb' 0 8 = op →
    s.block.latch.cmd.extractLsb' 8 8 ≠ 0 →
      step s = .next (completed (inTurn s) s.block .illegalCommand)

/-! Lines of the assembler (R55), said without the functions that read them. -/

/-- The characters that are digits, each with its value: the ten decimal ones, then the six more of the
hexadecimal ones in either case. -/
def digitTable : List (Char × Nat) :=
  [('0', 0), ('1', 1), ('2', 2), ('3', 3), ('4', 4), ('5', 5), ('6', 6), ('7', 7), ('8', 8), ('9', 9)] ++
  [('A', 10), ('B', 11), ('C', 12), ('D', 13), ('E', 14), ('F', 15)] ++
  [('a', 10), ('b', 11), ('c', 12), ('d', 13), ('e', 14), ('f', 15)]

/-- `ds` is a numeral of value `n` in the base: at least one digit, the most significant first. -/
def IsNumeral (base : Nat) (ds : List Char) (n : Nat) : Prop :=
  ds ≠ [] ∧ ∃ vs : List Nat, List.Forall₂ (fun c v => (c, v) ∈ digitTable ∧ v < base) ds vs ∧
    n = vs.foldl (fun acc v => base * acc + v) 0

/-- "a decimal literal or a `0x` hexadecimal literal" of value `m` (R55). -/
def IsLiteral (text : List Char) (m : Nat) : Prop :=
  IsNumeral 10 text m ∨ ∃ ds, text = '0' :: 'x' :: ds ∧ IsNumeral 16 ds m

/-- `line` is the command's line: `MNEMONIC m` for a command that uses m, `MNEMONIC` for the other three (R55). -/
def IsCommandLine (i : Instr) (line : List Char) : Prop :=
  match i.modulus? with
  | some m => ∃ text, IsLiteral text m ∧ line = i.mnemonic.toList ++ ' ' :: text
  | none => line = i.mnemonic.toList

/-- `line` is `.word 0x<8 hex digits>`, the digits those of the word `w` (R55). -/
def IsWordLine (w : Word) (line : List Char) : Prop :=
  ∃ ds, ds.length = 8 ∧ IsNumeral 16 ds w.toNat ∧ line = ['.', 'w', 'o', 'r', 'd', ' ', '0', 'x'] ++ ds

/-- The lines `MNEMONIC m`, m in 1..255 as a decimal literal, or as a `0x` hexadecimal literal with its digits in
upper case or in lower case, stand for the word of the command (R55). -/
def AssembledFrom (mnemonic : List Char) (command : Nat → Instr) : Prop :=
  ∀ m : Nat, 1 ≤ m → m < 256 →
    assemble (mnemonic ++ ' ' :: Nat.toDigits 10 m) = some (encode (command m)) ∧
    assemble (mnemonic ++ ' ' :: '0' :: 'x' :: (Nat.toDigits 16 m).map Char.toUpper) =
      some (encode (command m)) ∧
    assemble (mnemonic ++ ' ' :: '0' :: 'x' :: Nat.toDigits 16 m) = some (encode (command m))

/-! ## The invariant of the block -/

/-- What every reachable state of the block satisfies. -/
structure BlockInv (b : Block) : Prop where
  /-- RC reads 0 while BUSY = 1 (R14). -/
  busy_rc : b.latch.valid = true → b.rc = .ok
  /-- DONE is cleared by acceptance and set only by completion (R89). -/
  busy_done : b.latch.valid = true → b.done = false
  /-- The CMD readback is the word in flight (R16, R81). -/
  busy_cmd : b.latch.valid = true → b.cmd = b.latch.cmd
  /-- LAST_OP is bits [7:0] of the last accepted command word (R14, R16). -/
  last_op : b.lastOp = opcodeField b.cmd
  /-- RES_SCALAR lies in [0, 254] (R21). -/
  res_scalar : b.resScalar.toNat ≤ 254
  /-- RES_GCD lies in [0, 255]: [1, 255] after a MODINV, 0 after reset (R22, R30). -/
  res_gcd : b.resGcd.toNat ≤ 255
  /-- Bits [63:48] of D all equal bit 47 of D (R23). -/
  res_det : ∀ k : Fin 16, b.resDet.getLsbD (48 + k.val) = b.resDet.getLsbD 47
  /-- Every element of MAT_R is at most 254 (R24). -/
  mat_r : ∀ i : Fin 9, (b.matR.get i).toNat ≤ 254
  /-- Every element of VEC_R lies in [0, 25] (R25). -/
  vec_r : ∀ i : Fin 3, (b.vecR.get i).toNat ≤ 25

end Sys2Proof.Safety
end

