-- ==== Sys2Proof/Certificates/Slice0/Obligations.lean ====
section
/-! DEFINITION. What is claimed of HC3-CORE: statements only, each named for what it says. Addresses, opcodes and
bit positions are written out from the spec's own tables, so that a slip in the model's tables would make a
statement false. `completed s b rc` (Safety.lean) is the machine after a completion with the results of `b` and
the code `rc`: being an equation of whole states, each statement that ends in it is also the frame of its
instruction. -/

open Sys2Proof Sys2Proof.Machine Sys2Proof.Safety

/-! ## Encoding and decoding -/

/-- Decoding the word of any well-formed command gives the command back: no operand bit is dropped (R46, R55). -/
def Obligations.DecodeOfEncodeIsIdentity : Prop :=
  ∀ i : Instr, i.wellFormed = true → decode (encode i) = .ok i

/-- A word that decodes has one meaning and one spelling (R46, R54). -/
def Obligations.EncodeOfDecodeIsIdentity : Prop :=
  ∀ (w : Word) (i : Instr), decode w = .ok i → i.wellFormed = true ∧ encode i = w

/-- The encoding is `(opcode) | (m << 8)` with RSV = 0 (R55), the opcodes those of R48. -/
def Obligations.EncodedWordIsOpcodeOrShiftedModulus : Prop :=
  ∀ m : Nat, m < 256 →
    encode (.pmod m) = 0x01#32 ||| (BitVec.ofNat 32 m <<< 8) ∧
    encode (.modinv m) = 0x02#32 ||| (BitVec.ofNat 32 m <<< 8) ∧
    encode (.detm m) = 0x03#32 ||| (BitVec.ofNat 32 m <<< 8) ∧
    encode (.adjm m) = 0x04#32 ||| (BitVec.ofNat 32 m <<< 8) ∧
    encode (.redm m) = 0x05#32 ||| (BitVec.ofNat 32 m <<< 8) ∧
    encode (.scalem m) = 0x06#32 ||| (BitVec.ofNat 32 m <<< 8) ∧
    encode .crt = 0x00000007#32 ∧ encode .matvec = 0x00000008#32 ∧ encode .inv26 = 0x00000009#32

/-- The decoder accepts exactly the words the opcode table's match and mask describe, and gives each the
instruction of the one row that covers it (R48, opcode_table.json). -/
def Obligations.DecodeAgreesWithOpcodeTable : Prop :=
  ∀ w : Word,
    ((∃ i, decode w = .ok i) ↔ ∃ r ∈ opcodeTable, w &&& r.mask = r.value) ∧
    ∀ i, decode w = .ok i → ∀ r ∈ opcodeTable, (w &&& r.mask = r.value ↔ r.mnemonic = i.mnemonic)

/-- The words the spec spells out decode to the commands they stand for, and its illegal words to none. -/
def Obligations.SpelledWordsDecode : Prop :=
  decode 0x00001A01#32 = .ok (.pmod 26) ∧ decode 0x00000D02#32 = .ok (.modinv 13) ∧
  decode 0x00001A03#32 = .ok (.detm 26) ∧ decode 0x00000204#32 = .ok (.adjm 2) ∧
  decode 0x00001A05#32 = .ok (.redm 26) ∧ decode 0x0000FF06#32 = .ok (.scalem 255) ∧
  decode 0x00000007#32 = .ok .crt ∧ decode 0x00000008#32 = .ok .matvec ∧ decode 0x00000009#32 = .ok .inv26 ∧
  decode 0x00000000#32 = .error .reservedOpcode ∧ decode 0x00001AFF#32 = .error .reservedOpcode ∧
  decode 0x00010001#32 = .error .reservedFieldNotZero ∧ decode 0x00000109#32 = .error .modulusFieldNotZero

/-- A line stands for a word exactly when it is the mnemonic line of a legal command with that word, its modulus a
literal in either base, or the `.word` line of the word's eight hexadecimal digits (R55). The one space, the leading
zeros a literal may have, a `.word` line for a legal word, and that no other line is taken are the model's own,
assumption log 14. -/
def Obligations.AssemblerSpellsLegalCommands : Prop :=
  ∀ (line : List Char) (w : Word), assemble line = some w ↔
    (∃ i : Instr, i.legal = true ∧ IsCommandLine i line ∧ w = encode i) ∨ IsWordLine w line

/-! ## The life of a command -/

/-- When it is the core's turn and the word in flight decodes to `i`, the step is `exec i`, with the turn used up
and no access completed by the port: nothing else is added (R83, R84). -/
def Obligations.StepRunsDecodedCommand : Prop :=
  ∀ (s : State) (i : Instr), CompletesNext s → decode s.block.latch.cmd = .ok i →
    step s = exec i { s with turns := s.turns.tail, port := .idle }

/-- A write of `w` to CMD while BUSY = 0 is accepted, whatever `w` is (R81). -/
def Obligations.IdleCommandWriteIsAccepted : Prop :=
  ∀ (s : State) (w : Word) (ops : List HostOp), HostNext s (.write 0x00C#9 w 0b1111#4) ops →
    s.block.latch.valid = false →
      step s = .next { s with
        host := ops
        turns := s.turns.tail
        port := .writeDone false
        block := { s.block with
          latch := { valid := true, cmd := w, opa := s.block.opa, matA := s.block.matA, matB := s.block.matB,
                     vec := s.block.vec }
          done := false
          rc := .ok
          lastOp := w.extractLsb' 0 8
          cmd := w } }

/-- A write to CMD while BUSY = 1 is dropped: OVR alone changes in the block (R82). -/
def Obligations.BusyCommandWriteSetsOverrunOnly : Prop :=
  ∀ (s : State) (w : Word) (ops : List HostOp), HostNext s (.write 0x00C#9 w 0b1111#4) ops →
    s.block.latch.valid = true →
      step s = .next { s with
        host := ops
        turns := s.turns.tail
        port := .writeDone false
        block := { s.block with ovr := true } }

/-- Words with a reserved opcode, a nonzero RSV, or a nonzero M on CRT, MATVEC or INV26 are accepted like any
other and complete with ILLEGAL_COMMAND; no result register is written (R49, R50, R51). -/
def Obligations.IllegalWordsCompleteWithIllegalCommand : Prop :=
  (∀ (s : State) (w : Word) (ops : List HostOp), HostNext s (.write 0x00C#9 w 0b1111#4) ops →
    s.block.latch.valid = false →
      ∃ t, step s = .next t ∧ t.block.latch.valid = true ∧ t.block.latch.cmd = w ∧
        t.block.lastOp = w.extractLsb' 0 8) ∧
  (∀ s : State, CompletesNext s →
    (s.block.latch.cmd.extractLsb' 0 8 = 0x00#8 ∨ 0x0A ≤ (s.block.latch.cmd.extractLsb' 0 8).toNat) →
      step s = .next (completed (inTurn s) s.block .illegalCommand)) ∧
  (∀ op : BitVec 8, ReservedBitsRefused op) ∧
  ModulusBitsRefused 0x07 ∧ ModulusBitsRefused 0x08 ∧ ModulusBitsRefused 0x09

/-- Modulus 0 is well formed and completes with ILLEGAL_OPERAND, writing no result; modulus 1 is legal and every
residue mod 1 is 0 (R52). -/
def Obligations.ModulusZeroIsIllegalOperand : Prop :=
  (∀ i : Instr, i.modulus? = some 0 → decode (encode i) = .ok i ∧
    ∀ s : State, exec i s = .next (completed s s.block .illegalOperand)) ∧
  (∀ i : Instr, i.modulus? = some 1 → ∀ s : State, ∃ t, exec i s = .next t ∧
    t.block.rc ≠ .illegalOperand ∧ t.block.rc ≠ .illegalCommand) ∧
  ∀ v : Int, positiveMod v 1 = 0

/-- The core's step at any word: the four checks of R53 in their order, then the command. -/
def Obligations.DecodeChecksRunInOrder : Prop :=
  ∀ (s : State) (op m rsv : Nat), CompletesNext s →
    op = (s.block.latch.cmd.extractLsb' 0 8).toNat → m = (s.block.latch.cmd.extractLsb' 8 8).toNat →
    rsv = (s.block.latch.cmd.extractLsb' 16 16).toNat →
      step s =
        if ¬ (1 ≤ op ∧ op ≤ 9) then .next (completed (inTurn s) s.block .illegalCommand)
        else if rsv ≠ 0 then .next (completed (inTurn s) s.block .illegalCommand)
        else if 7 ≤ op ∧ m ≠ 0 then .next (completed (inTurn s) s.block .illegalCommand)
        else if op ≤ 6 ∧ m = 0 then .next (completed (inTurn s) s.block .illegalOperand)
        else if op = 1 then exec (.pmod m) (inTurn s)
        else if op = 2 then exec (.modinv m) (inTurn s)
        else if op = 3 then exec (.detm m) (inTurn s)
        else if op = 4 then exec (.adjm m) (inTurn s)
        else if op = 5 then exec (.redm m) (inTurn s)
        else if op = 6 then exec (.scalem m) (inTurn s)
        else if op = 7 then exec .crt (inTurn s)
        else if op = 8 then exec .matvec (inTurn s)
        else exec .inv26 (inTurn s)

/-! ## The nine commands -/

/-- PMOD (R60). -/
def Obligations.PmodWritesResidue : Prop :=
  (∀ (m : Nat) (s : State), 1 ≤ m → m < 256 →
    ∃ r : Nat, IsResidue s.block.latch.opa.toInt m r ∧
      exec (.pmod m) s = .next (completed s { s.block with resScalar := BitVec.ofNat 32 r } .ok)) ∧
  (∀ s : State, exec (.pmod 0) s = .next (completed s s.block .illegalOperand)) ∧
  (∀ m : Nat, m < 256 → decode (BitVec.ofNat 32 (256 * m + 0x01)) = .ok (.pmod m)) ∧
  AssembledFrom ['P', 'M', 'O', 'D'] .pmod ∧
  ReservedBitsRefused 0x01

/-- MODINV (R61): the gcd always; the inverse when it exists, else NO_INVERSE. -/
def Obligations.ModinvWritesGcdAndInverse : Prop :=
  (∀ (m : Nat) (s : State), 1 ≤ m → m < 256 →
    (Int.gcd s.block.latch.opa.toInt m = 1 →
      ∃ x : Nat, x < m ∧ (m : Int) ∣ s.block.latch.opa.toInt * x - 1 ∧
        exec (.modinv m) s = .next (completed s
          { s.block with resGcd := 1#32, resScalar := BitVec.ofNat 32 x } .ok)) ∧
    (Int.gcd s.block.latch.opa.toInt m ≠ 1 →
      exec (.modinv m) s = .next (completed s
        { s.block with resGcd := BitVec.ofNat 32 (Int.gcd s.block.latch.opa.toInt m) } .noInverse))) ∧
  (∀ s : State, exec (.modinv 0) s = .next (completed s s.block .illegalOperand)) ∧
  (∀ m : Nat, m < 256 → decode (BitVec.ofNat 32 (256 * m + 0x02)) = .ok (.modinv m)) ∧
  AssembledFrom ['M', 'O', 'D', 'I', 'N', 'V'] .modinv ∧
  ReservedBitsRefused 0x02

/-- DETM (R68): the exact determinant in 64 bits, and its residue. -/
def Obligations.DetmWritesDeterminantAndResidue : Prop :=
  (∀ (m : Nat) (s : State), 1 ≤ m → m < 256 →
    ∃ (D : BitVec 64) (r : Nat), D.toInt = (matrixOf s.block.latch.matA).det ∧
      IsResidue (matrixOf s.block.latch.matA).det m r ∧
      exec (.detm m) s = .next (completed s { s.block with
        resDetLo := D.extractLsb' 0 32
        resDetHi := D.extractLsb' 32 32
        resScalar := BitVec.ofNat 32 r } .ok)) ∧
  (∀ s : State, exec (.detm 0) s = .next (completed s s.block .illegalOperand)) ∧
  (∀ m : Nat, m < 256 → decode (BitVec.ofNat 32 (256 * m + 0x03)) = .ok (.detm m)) ∧
  AssembledFrom ['D', 'E', 'T', 'M'] .detm ∧
  ReservedBitsRefused 0x03

/-- ADJM (R69). -/
def Obligations.AdjmWritesReducedAdjugate : Prop :=
  (∀ (m : Nat) (s : State), 1 ≤ m → m < 256 →
    ∃ R : Mat3 ResElem,
      (∀ r c, IsResidue ((matrixOf s.block.latch.matA).adjugate r c) m (R.entry r c).toNat) ∧
      exec (.adjm m) s = .next (completed s { s.block with matR := R } .ok)) ∧
  (∀ s : State, exec (.adjm 0) s = .next (completed s s.block .illegalOperand)) ∧
  (∀ m : Nat, m < 256 → decode (BitVec.ofNat 32 (256 * m + 0x04)) = .ok (.adjm m)) ∧
  AssembledFrom ['A', 'D', 'J', 'M'] .adjm ∧
  ReservedBitsRefused 0x04

/-- REDM (R70). -/
def Obligations.RedmWritesReducedMatrix : Prop :=
  (∀ (m : Nat) (s : State), 1 ≤ m → m < 256 →
    ∃ R : Mat3 ResElem,
      (∀ r c, IsResidue (matrixOf s.block.latch.matA r c) m (R.entry r c).toNat) ∧
      exec (.redm m) s = .next (completed s { s.block with matR := R } .ok)) ∧
  (∀ s : State, exec (.redm 0) s = .next (completed s s.block .illegalOperand)) ∧
  (∀ m : Nat, m < 256 → decode (BitVec.ofNat 32 (256 * m + 0x05)) = .ok (.redm m)) ∧
  AssembledFrom ['R', 'E', 'D', 'M'] .redm ∧
  ReservedBitsRefused 0x05

/-- SCALEM (R71). -/
def Obligations.ScalemWritesScaledMatrix : Prop :=
  (∀ (m : Nat) (s : State), 1 ≤ m → m < 256 →
    ∃ R : Mat3 ResElem,
      (∀ r c, IsResidue (matrixOf s.block.latch.matA r c * s.block.latch.opa.toInt) m (R.entry r c).toNat) ∧
      exec (.scalem m) s = .next (completed s { s.block with matR := R } .ok)) ∧
  (∀ s : State, exec (.scalem 0) s = .next (completed s s.block .illegalOperand)) ∧
  (∀ m : Nat, m < 256 → decode (BitVec.ofNat 32 (256 * m + 0x06)) = .ok (.scalem m)) ∧
  AssembledFrom ['S', 'C', 'A', 'L', 'E', 'M'] .scalem ∧
  ReservedBitsRefused 0x06

/-- CRT (R75, R74): each element is the value in [0, 26) that agrees with MAT_A mod 2 and with MAT_B mod 13. -/
def Obligations.CrtWritesRecombinedMatrix : Prop :=
  (∀ s : State, ∃ R : Mat3 ResElem,
    (∀ r c, (R.entry r c).toNat < 26 ∧
      (2 : Int) ∣ matrixOf s.block.latch.matA r c - resultMatrixOf R r c ∧
      (13 : Int) ∣ matrixOf s.block.latch.matB r c - resultMatrixOf R r c) ∧
    exec .crt s = .next (completed s { s.block with matR := R } .ok)) ∧
  decode 0x00000007#32 = .ok .crt ∧ assemble ['C', 'R', 'T'] = some 0x00000007#32 ∧
  ReservedBitsRefused 0x07 ∧ ModulusBitsRefused 0x07

/-- MATVEC (R72): the column-vector product mod 26. -/
def Obligations.MatvecWritesProduct : Prop :=
  (∀ s : State, ∃ V : Vec3 ResElem,
    (∀ r, IsResidue ((matrixOf s.block.latch.matA).mulVec (vectorOf s.block.latch.vec) r) 26 (V.get r).toNat) ∧
    exec .matvec s = .next (completed s { s.block with vecR := V } .ok)) ∧
  decode 0x00000008#32 = .ok .matvec ∧ assemble ['M', 'A', 'T', 'V', 'E', 'C'] = some 0x00000008#32 ∧
  ReservedBitsRefused 0x08 ∧ ModulusBitsRefused 0x08

/-- INV26 (R80, R79): the inverse of MAT_A mod 26 when gcd(det, 26) = 1; otherwise a code and no result. -/
def Obligations.Inv26WritesInverseOrCode : Prop :=
  (∀ s : State,
    (Int.gcd (matrixOf s.block.latch.matA).det 26 = 1 →
      ∃ R : Mat3 ResElem, (∀ r c, (R.entry r c).toNat < 26) ∧
        (∀ r c, (26 : Int) ∣ (matrixOf s.block.latch.matA * resultMatrixOf R - 1) r c) ∧
        exec .inv26 s = .next (completed s { s.block with matR := R } .ok)) ∧
    ((2 : Int) ∣ (matrixOf s.block.latch.matA).det →
      exec .inv26 s = .next (completed s s.block .noninvMod2)) ∧
    (¬ (2 : Int) ∣ (matrixOf s.block.latch.matA).det → (13 : Int) ∣ (matrixOf s.block.latch.matA).det →
      exec .inv26 s = .next (completed s s.block .noninvMod13))) ∧
  decode 0x00000009#32 = .ok .inv26 ∧ assemble ['I', 'N', 'V', '2', '6'] = some 0x00000009#32 ∧
  ReservedBitsRefused 0x09 ∧ ModulusBitsRefused 0x09

/-! ## The arithmetic behind them -/

/-- `positiveMod` gives the residue of R7 and R57; `modularInverse` gives NONE exactly when gcd(a, m) ≠ 1, and
otherwise the one inverse in [0, m) (R59). -/
def Obligations.ModularInverseExistsExactlyForUnits : Prop :=
  ∀ (a : Int) (m : Nat), 1 ≤ m →
    0 ≤ positiveMod a m ∧ positiveMod a m < m ∧ (m : Int) ∣ a - positiveMod a m ∧
    (modularInverse a m = none ↔ Int.gcd a m ≠ 1) ∧
    ∀ x : Nat, modularInverse a m = some x →
      x < m ∧ (m : Int) ∣ a * x - 1 ∧ ∀ y : Nat, y < m → (m : Int) ∣ a * y - 1 → y = x

/-- `determinant` is the determinant and `adjugate` the transposed cofactor matrix, each cofactor a signed 2×2
minor; the product of a matrix and its adjugate is the determinant times the identity, either way round (R62,
R63). -/
def Obligations.DeterminantAndAdjugateAreExact : Prop :=
  ∀ M : Mat3 Int,
    determinant M = (intMatrixOf M).det ∧
    determinant M = M.get 0 * (M.get 4 * M.get 8 - M.get 5 * M.get 7)
      - M.get 1 * (M.get 3 * M.get 8 - M.get 5 * M.get 6) + M.get 2 * (M.get 3 * M.get 7 - M.get 4 * M.get 6) ∧
    (∀ r c : Fin 3, (adjugate M).entry r c =
      (-1) ^ (r.val + c.val) * ((intMatrixOf M).submatrix c.succAbove r.succAbove).det) ∧
    intMatrixOf M * intMatrixOf (adjugate M) = determinant M • (1 : Matrix (Fin 3) (Fin 3) Int) ∧
    intMatrixOf (adjugate M) * intMatrixOf M = determinant M • (1 : Matrix (Fin 3) (Fin 3) Int)

/-- The bounds of R64 for 16-bit elements, the largest determinant reached at a corner of their range, the 64-bit
word that holds it exactly, and the sign copies in its bits [63:48]. -/
def Obligations.DeterminantFitsFortyEightBits : Prop :=
  (∀ M : Mat3 Elem,
    (∀ i j, -(2 : Int) ^ 30 + 2 ^ 15 ≤ M.toInts.get i * M.toInts.get j ∧
      M.toInts.get i * M.toInts.get j ≤ (2 : Int) ^ 30) ∧
    (∀ i, |(adjugate M.toInts).get i| ≤ (2 : Int) ^ 31 - 2 ^ 15) ∧
    |determinant M.toInts| ≤ 140737488257025 ∧
    (determinantWord (determinant M.toInts)).toInt = determinant M.toInts ∧
    ∀ k : Fin 16, (determinantWord (determinant M.toInts)).getLsbD (48 + k.val) =
      (determinantWord (determinant M.toInts)).getLsbD 47) ∧
  ∃ M : Mat3 Elem, (∀ i, M.get i = 0x8000#16 ∨ M.get i = 0x7FFF#16) ∧
    |determinant M.toInts| = 140737488257025

/-- `crt26` of the residues is the unique value in [0, 26) with those residues, and of any two integers the
value for their residues (R73, R74). -/
def Obligations.CrtValueIsUnique : Prop :=
  (∀ a b : Int, crt26 a b = crt26 (a % 2) (b % 13) ∧ crt26 a b = (13 * (a % 2) + 14 * (b % 13)) % 26) ∧
  ∀ r2 r13 : Int, 0 ≤ r2 → r2 < 2 → 0 ≤ r13 → r13 < 13 →
    0 ≤ crt26 r2 r13 ∧ crt26 r2 r13 < 26 ∧ crt26 r2 r13 % 2 = r2 ∧ crt26 r2 r13 % 13 = r13 ∧
    ∀ x : Int, 0 ≤ x → x < 26 → x % 2 = r2 → x % 13 = r13 → x = crt26 r2 r13

/-- The modulus-2 check comes first; MODINV_ABSENT is never the outcome (R77, R78). -/
def Obligations.InverterReportsModulusTwoFirst : Prop :=
  ∀ K : Mat3 Int,
    (determinant K % 2 = 0 → invert26 K = .error .noninvMod2) ∧
    (determinant K % 2 ≠ 0 → determinant K % 13 = 0 → invert26 K = .error .noninvMod13) ∧
    invert26 K ≠ .error .modinvAbsent

/-- `Invert26` returns a matrix exactly when gcd(d, 26) = 1, and then the one matrix with entries in [0, 26)
that inverts K mod 26, on either side (R79). -/
def Obligations.InverterReturnsTheUniqueInverse : Prop :=
  ∀ K : Mat3 Int,
    ((∃ R, invert26 K = .ok R) ↔ Int.gcd (determinant K) 26 = 1) ∧
    ∀ R, invert26 K = .ok R →
      (∀ r c, 0 ≤ R.entry r c ∧ R.entry r c < 26) ∧
      (∀ r c, (26 : Int) ∣ (intMatrixOf K * intMatrixOf R - 1) r c) ∧
      (∀ r c, (26 : Int) ∣ (intMatrixOf R * intMatrixOf K - 1) r c) ∧
      ∀ R' : Mat3 Int, (∀ r c, 0 ≤ R'.entry r c ∧ R'.entry r c < 26) →
        (∀ r c, (26 : Int) ∣ (intMatrixOf K * intMatrixOf R' - 1) r c) → R' = R

/-- Decrypting undoes encrypting: where INV26 inverts a key, MATVEC with the inverse (copied from MAT_R to MAT_A
as R108 says) takes the product of the key and a block of letters back to the letters. -/
def Obligations.DecryptionUndoesEncryption : Prop :=
  ∀ s s' e e' d d' : State,
    exec .inv26 s = .next s' → s'.block.rc = .ok →
    e.block.latch.matA = s.block.latch.matA →
    (∀ r, 0 ≤ (e.block.latch.vec.get r).toInt ∧ (e.block.latch.vec.get r).toInt < 26) →
    exec .matvec e = .next e' →
    d.block.latch.matA = s'.block.matR.map (fun x => storeElem (loadResElem x)) →
    d.block.latch.vec = e'.block.vecR.map (fun x => storeElem (loadResElem x)) →
    exec .matvec d = .next d' →
      ∀ r, ((d'.block.vecR.get r).toNat : Int) = (e.block.latch.vec.get r).toInt

/-! ## What a completion may do -/

/-- No partial output: on a failure no result register changes, but RES_GCD on NO_INVERSE, which MODINV alone
reports; on OK only the command's own results change (R85). -/
def Obligations.CompletionWritesOnlyItsResults : Prop :=
  ∀ (i : Instr) (s t : State), exec i s = .next t →
    (t.block.rc ≠ .ok → t.block.resScalar = s.block.resScalar ∧ t.block.resDetLo = s.block.resDetLo ∧
      t.block.resDetHi = s.block.resDetHi ∧ t.block.matR = s.block.matR ∧ t.block.vecR = s.block.vecR) ∧
    (t.block.rc ≠ .ok → t.block.rc ≠ .noInverse → t.block.resGcd = s.block.resGcd) ∧
    (t.block.rc = .noInverse → i.mnemonic = "MODINV") ∧
    (i.mnemonic ∉ ["PMOD", "MODINV", "DETM"] → t.block.resScalar = s.block.resScalar) ∧
    (i.mnemonic ≠ "MODINV" → t.block.resGcd = s.block.resGcd) ∧
    (i.mnemonic ≠ "DETM" → t.block.resDetLo = s.block.resDetLo ∧ t.block.resDetHi = s.block.resDetHi) ∧
    (i.mnemonic ∉ ["ADJM", "REDM", "SCALEM", "CRT", "INV26"] → t.block.matR = s.block.matR) ∧
    (i.mnemonic ≠ "MATVEC" → t.block.vecR = s.block.vecR)

/-- The codes each command can complete with (R86; MODINV_ABSENT never, R78), for any word with its opcode; the
opcode and the word stay recorded in LAST_OP and the CMD readback. -/
def Obligations.ResultCodesByCommand : Prop :=
  ∀ (s t : State) (op : Nat), CompletesNext s → op = (s.block.latch.cmd.extractLsb' 0 8).toNat →
    step s = .next t →
      (op = 1 → t.block.rc ∈ [.ok, .illegalOperand, .illegalCommand]) ∧
      (op = 2 → t.block.rc ∈ [.ok, .noInverse, .illegalOperand, .illegalCommand]) ∧
      (3 ≤ op ∧ op ≤ 6 → t.block.rc ∈ [.ok, .illegalOperand, .illegalCommand]) ∧
      (op = 7 ∨ op = 8 → t.block.rc ∈ [.ok, .illegalCommand]) ∧
      (op = 9 → t.block.rc ∈ [.ok, .noninvMod2, .noninvMod13, .illegalCommand]) ∧
      (op = 0 ∨ 10 ≤ op → t.block.rc = .illegalCommand) ∧
      t.block.lastOp = s.block.lastOp ∧ t.block.cmd = s.block.cmd

/-- Exec is a function of L alone (R83): two machines with the same L and the same earlier results, whatever
else they hold, complete with the same code and the same results. -/
def Obligations.ResultsDependOnLatchAlone : Prop :=
  ∀ (i : Instr) (s u s' u' : State), s.block.latch = u.block.latch →
    s.block.resScalar = u.block.resScalar → s.block.resGcd = u.block.resGcd →
    s.block.resDetLo = u.block.resDetLo → s.block.resDetHi = u.block.resDetHi →
    s.block.matR = u.block.matR → s.block.vecR = u.block.vecR →
    exec i s = .next s' → exec i u = .next u' →
      s'.block.rc = u'.block.rc ∧ s'.block.resScalar = u'.block.resScalar ∧
      s'.block.resGcd = u'.block.resGcd ∧ s'.block.resDetLo = u'.block.resDetLo ∧
      s'.block.resDetHi = u'.block.resDetHi ∧ s'.block.matR = u'.block.matR ∧ s'.block.vecR = u'.block.vecR

/-! ## The register port -/

/-- A bus error changes nothing in the block and is reported on `err` alone; to the host it is a fault (R36). -/
def Obligations.BusErrorsChangeNothing : Prop :=
  (∀ (s : State) (a : Addr) (ops : List HostOp), HostNext s (.read a) ops → a.extractLsb' 0 2 ≠ 0#2 →
    step s = .next { s with host := ops, turns := s.turns.tail, port := .readDone 0#32 true } ∧
    hostStep s = .fault .hostBusError) ∧
  ∀ (s : State) (a : Addr) (v : Word) (k : Strobes) (ops : List HostOp), HostNext s (.write a v k) ops →
    a.extractLsb' 0 2 ≠ 0#2 ∨ k ≠ 0b1111#4 →
      step s = .next { s with host := ops, turns := s.turns.tail, port := .writeDone true } ∧
      hostStep s = .fault .hostBusError

/-- The reserved addresses, which R11 does not list, are those R38 lists; they read 0 and ignore writes, without a
bus error. -/
def Obligations.ReservedAddressesReadZero : Prop :=
  ∀ (s : State) (a : Addr) (ops : List HostOp), a.toNat % 4 = 0 →
    (Reg.ofAddr a = none ↔
      (0x014 ≤ a.toNat ∧ a.toNat ≤ 0x03C) ∨ (0x064 ≤ a.toNat ∧ a.toNat ≤ 0x07C) ∨
        (0x0A4 ≤ a.toNat ∧ a.toNat ≤ 0x0BC) ∨ (0x0CC ≤ a.toNat ∧ a.toNat ≤ 0x0FC) ∨
        (0x110 ≤ a.toNat ∧ a.toNat ≤ 0x13C) ∨ (0x164 ≤ a.toNat ∧ a.toNat ≤ 0x17C) ∨ 0x18C ≤ a.toNat) ∧
    (Reg.ofAddr a = none →
      (HostNext s (.read a) ops →
        step s = .next { s with host := ops, turns := s.turns.tail, port := .readDone 0#32 false }) ∧
      ∀ v : Word, HostNext s (.write a v 0b1111#4) ops →
        step s = .next { s with host := ops, turns := s.turns.tail, port := .writeDone false })

/-- The register map of R11: one register at one aligned address of the window, at the offsets of the table. -/
def Obligations.RegisterMapIsOneToOne : Prop :=
  (∀ (a : Addr) (r : Reg), Reg.ofAddr a = some r ↔ a.toNat = r.offset) ∧
  (∀ r : Reg, r.offset % 4 = 0 ∧ r.offset < 512) ∧
  (Reg.ofAddr 0x000#9 = some .id ∧ Reg.ofAddr 0x004#9 = some .ctrl ∧ Reg.ofAddr 0x008#9 = some .status ∧
    Reg.ofAddr 0x00C#9 = some .cmd ∧ Reg.ofAddr 0x010#9 = some .opa ∧ Reg.ofAddr 0x100#9 = some .resScalar ∧
    Reg.ofAddr 0x104#9 = some .resGcd ∧ Reg.ofAddr 0x108#9 = some .resDetLo ∧
    Reg.ofAddr 0x10C#9 = some .resDetHi) ∧
  (∀ i : Fin 9, Reg.ofAddr (BitVec.ofNat 9 (0x040 + 4 * i.val)) = some (.matA i) ∧
    Reg.ofAddr (BitVec.ofNat 9 (0x080 + 4 * i.val)) = some (.matB i) ∧
    Reg.ofAddr (BitVec.ofNat 9 (0x140 + 4 * i.val)) = some (.matR i)) ∧
  ∀ i : Fin 3, Reg.ofAddr (BitVec.ofNat 9 (0x0C0 + 4 * i.val)) = some (.vec i) ∧
    Reg.ofAddr (BitVec.ofNat 9 (0x180 + 4 * i.val)) = some (.vecR i)

/-- No read has a side effect on the block, and a write has one only at CMD, STATUS, CTRL or an operand register
(R39). -/
def Obligations.OnlyListedWritesHaveEffects : Prop :=
  (∀ (s t : State) (a : Addr) (ops : List HostOp), HostNext s (.read a) ops → step s = .next t →
    t.block = s.block) ∧
  (∀ (s t : State) (ops : List HostOp), HostNext s .waitNotBusy ops ∨ HostNext s .waitIrq ops →
    step s = .next t → t.block = s.block) ∧
  ∀ (s t : State) (a : Addr) (v : Word) (k : Strobes) (ops : List HostOp), HostNext s (.write a v k) ops →
    step s = .next t → t.block ≠ s.block →
      k = 0b1111#4 ∧ (a = 0x00C#9 ∨ a = 0x008#9 ∨ a = 0x004#9 ∨ a = 0x010#9 ∨
        (0x040 ≤ a.toNat ∧ a.toNat ≤ 0x060) ∨ (0x080 ≤ a.toNat ∧ a.toNat ≤ 0x0A0) ∨
        (0x0C0 ≤ a.toNat ∧ a.toNat ≤ 0x0C8))

/-- ID reads 0x48433301 in every state, and writes to it are ignored without a bus error (R12). -/
def Obligations.IdReadsItsConstant : Prop :=
  ∀ (s : State) (ops : List HostOp),
    (HostNext s (.read 0x000#9) ops →
      step s = .next { s with host := ops, turns := s.turns.tail, port := .readDone 0x48433301#32 false }) ∧
    ∀ v : Word, HostNext s (.write 0x000#9 v 0b1111#4) ops →
      step s = .next { s with host := ops, turns := s.turns.tail, port := .writeDone false }

/-- CTRL: a write stores wdata[0] into IE and discards the rest, at any time; a read returns IE in bit 0 and
zeros; IE is 0 after reset, and it enables the interrupt (R13). -/
def Obligations.CtrlStoresInterruptEnable : Prop :=
  (∀ (s : State) (ops : List HostOp),
    (∀ v : Word, HostNext s (.write 0x004#9 v 0b1111#4) ops →
      step s = .next { s with
        host := ops
        turns := s.turns.tail
        port := .writeDone false
        block := { s.block with ie := v.getLsbD 0 } }) ∧
    (HostNext s (.read 0x004#9) ops →
      step s = .next { s with
        host := ops
        turns := s.turns.tail
        port := .readDone (if s.block.ie then 1#32 else 0#32) false })) ∧
  State.reset.block.ie = false ∧ ∀ b : Block, b.irq = (b.ie && b.done)

/-- STATUS: where a read puts each field, and which bits of a write clear what (R14, R15). -/
def Obligations.StatusLayoutAndWriteOneToClear : Prop :=
  (∀ (s : State) (ops : List HostOp), HostNext s (.read 0x008#9) ops →
    ∃ w : Word,
      step s = .next { s with host := ops, turns := s.turns.tail, port := .readDone w false } ∧
      w.getLsbD 0 = s.block.latch.valid ∧ w.getLsbD 1 = s.block.done ∧ w.getLsbD 2 = s.block.ovr ∧
      w.getLsbD 3 = false ∧ w.extractLsb' 8 8 = s.block.lastOp ∧ w.extractLsb' 16 16 = 0#16 ∧
      (w.extractLsb' 4 4).toNat =
        (match s.block.rc with
        | .ok => 0
        | .noninvMod2 => 1
        | .noninvMod13 => 2
        | .modinvAbsent => 3
        | .noInverse => 4
        | .illegalCommand => 5
        | .illegalOperand => 6)) ∧
  ∀ (s : State) (v : Word) (ops : List HostOp), HostNext s (.write 0x008#9 v 0b1111#4) ops →
    step s = .next { s with
      host := ops
      turns := s.turns.tail
      port := .writeDone false
      block := { s.block with
        done := if v.getLsbD 1 then false else s.block.done
        ovr := if v.getLsbD 2 then false else s.block.ovr } }

/-- "BUSY, RC and LAST_OP change only through command acceptance, completion and reset" (R14). -/
def Obligations.StatusFieldsFollowTheLifecycle : Prop :=
  ∀ s t : State, step s = .next t →
    t.block.latch.valid ≠ s.block.latch.valid ∨ t.block.rc ≠ s.block.rc ∨ t.block.lastOp ≠ s.block.lastOp →
      nextTurn s = .reset ∨ CompletesNext s ∨
        (s.block.latch.valid = false ∧ ∃ w ops, HostNext s (.write 0x00C#9 w 0b1111#4) ops)

/-- A read of CMD returns the last accepted word: an accepted write changes it to the word written, whatever the
word, and a dropped one does not (R16). -/
def Obligations.CmdReadsBackTheLastAcceptedWord : Prop :=
  ∀ (s : State) (ops : List HostOp),
    (HostNext s (.read 0x00C#9) ops →
      step s = .next { s with host := ops, turns := s.turns.tail, port := .readDone s.block.cmd false }) ∧
    ∀ w : Word, HostNext s (.write 0x00C#9 w 0b1111#4) ops →
      ∃ t, step s = .next t ∧ t.port = .writeDone false ∧
        t.block.cmd = if s.block.latch.valid then s.block.cmd else w

/-- A write to an operand register is what a read then returns: all of it for OPA, the sign extension of its low
16 bits for an element; no other byte of the window changes, and L, the status fields and the results do not,
busy or idle (R17-R20, R106). -/
def Obligations.OperandWritesStoreAndReadBack : Prop :=
  ∀ (s : State) (r : Reg) (v : Word) (ops : List HostOp), r.isOperand = true →
    HostNext s (.write r.addr v 0b1111#4) ops →
      ∃ t, step s = .next t ∧ t.host = ops ∧ t.turns = s.turns.tail ∧ t.draws = s.draws ∧
        t.port = .writeDone false ∧
        t.block.readReg r = (if r = .opa then v else (v.extractLsb' 0 16).signExtend 32) ∧
        (∀ a : Addr, a.toNat / 4 ≠ r.offset / 4 → t.block.byteAt a = s.block.byteAt a) ∧
        (∀ q : Reg, q ≠ r → t.block.readReg q = s.block.readReg q) ∧
        t.block.latch = s.block.latch

/-- While idle the result registers read as R21-R25 say, and writes to them are ignored. -/
def Obligations.ResultRegistersReadAndIgnoreWrites : Prop :=
  ∀ (s : State) (a : Addr) (w : Word) (ops : List HostOp),
    (a = 0x100#9 ∧ w = s.block.resScalar) ∨ (a = 0x104#9 ∧ w = s.block.resGcd) ∨
      (a = 0x108#9 ∧ w = s.block.resDetLo) ∨ (a = 0x10C#9 ∧ w = s.block.resDetHi) ∨
      (∃ i : Fin 9, a = BitVec.ofNat 9 (0x140 + 4 * i.val) ∧ w = (s.block.matR.get i).setWidth 32) ∨
      (∃ i : Fin 3, a = BitVec.ofNat 9 (0x180 + 4 * i.val) ∧ w = (s.block.vecR.get i).setWidth 32) →
    (s.block.latch.valid = false → HostNext s (.read a) ops →
      step s = .next { s with host := ops, turns := s.turns.tail, port := .readDone w false }) ∧
    ∀ v : Word, HostNext s (.write a v 0b1111#4) ops →
      step s = .next { s with host := ops, turns := s.turns.tail, port := .writeDone false }

/-- While BUSY = 1 a read of a result register returns a fresh free value, one for each such read, and changes
nothing in the block (R104). The value is the opaque `Config.freeRead` of a
counter, assumption log 3; nothing is claimed of it. -/
def Obligations.BusyResultReadsAreFree : Prop :=
  ∀ (s : State) (r : Reg) (ops : List HostOp), r.isResult = true → s.block.latch.valid = true →
    HostNext s (.read r.addr) ops →
      step s = .next { s with
        host := ops
        turns := s.turns.tail
        port := .readDone (Config.freeRead s.draws) false
        draws := s.draws + 1 }

/-- Byte lane k of a register is byte `addr + k` of the window, and the determinant's low word lies at the lower
address: little-endian (R37). -/
def Obligations.WindowBytesAreLittleEndian : Prop :=
  (∀ (b : Block) (r : Reg) (k : Fin 4),
    b.byteAt (BitVec.ofNat 9 (r.offset + k.val)) = (b.readReg r).extractLsb' (8 * k.val) 8) ∧
  ∀ (b : Block) (k : Fin 8),
    b.byteAt (BitVec.ofNat 9 (0x108 + k.val)) = (b.resDetHi ++ b.resDetLo).extractLsb' (8 * k.val) 8

/-! ## Whole-machine rules -/

/-- The interrupt: `irq = IE & DONE`; every completion, failing or not, leaves `irq` = IE; and `irq` rises only by
a completion or by a CTRL write that enables it while DONE = 1 (R88). -/
def Obligations.InterruptSignalsCompletion : Prop :=
  (∀ b : Block, b.irq = (b.ie && b.done)) ∧
  (∀ s t : State, CompletesNext s → step s = .next t → t.block.irq = s.block.ie) ∧
  ∀ s t : State, step s = .next t → s.block.irq = false → t.block.irq = true →
    CompletesNext s ∨
      (s.block.done = true ∧ ∃ v ops, HostNext s (.write 0x004#9 v 0b1111#4) ops ∧ v.getLsbD 0 = true)

/-- DONE: set by every completion and by nothing else; cleared by a STATUS write with bit 1, by an acceptance, by
reset, and by nothing else; a clear and a completion in one cycle leave it 1 (R89). -/
def Obligations.DoneIsSetByCompletionAlone : Prop :=
  (∀ s t : State, CompletesNext s → step s = .next t → t.block.done = true) ∧
  (∀ s t : State, step s = .next t → s.block.done = false → t.block.done = true → CompletesNext s) ∧
  (∀ (s t : State), step s = .next t →
    (nextTurn s = .reset ∨
      (∃ v ops, HostNext s (.write 0x008#9 v 0b1111#4) ops ∧ v.getLsbD 1 = true) ∨
      (s.block.latch.valid = false ∧ ∃ w ops, HostNext s (.write 0x00C#9 w 0b1111#4) ops)) →
        t.block.done = false) ∧
  (∀ s t : State, step s = .next t → s.block.done = true → t.block.done = false →
    nextTurn s = .reset ∨
      (∃ v ops, HostNext s (.write 0x008#9 v 0b1111#4) ops ∧ v.getLsbD 1 = true) ∨
      (s.block.latch.valid = false ∧ ∃ w ops, HostNext s (.write 0x00C#9 w 0b1111#4) ops)) ∧
  ∀ (s : State) (v : Word) (ops : List HostOp) (ts : List Turn), s.turns = .host :: .core :: ts →
    s.host = .write 0x008#9 v 0b1111#4 :: ops → s.block.latch.valid = true →
      ∃ t, Host.Core.run Sys2Proof.core 2 s = .next t ∧ t.block.done = true

/-- OVR: set by a dropped CMD write and by nothing else; cleared by a STATUS write with bit 2, by reset, and by
nothing else (R90). -/
def Obligations.OverrunIsSticky : Prop :=
  (∀ s t : State, step s = .next t → s.block.ovr = false →
    (t.block.ovr = true ↔
      s.block.latch.valid = true ∧ ∃ w ops, HostNext s (.write 0x00C#9 w 0b1111#4) ops)) ∧
  ∀ s t : State, step s = .next t → s.block.ovr = true →
    (t.block.ovr = false ↔
      nextTurn s = .reset ∨ ∃ v ops, HostNext s (.write 0x008#9 v 0b1111#4) ops ∧ v.getLsbD 2 = true)

/-- After reset every register reads its reset value, a command in flight is abandoned and `irq` = 0, whatever
the state was (R30, R101); the state after reset is such a state. -/
def Obligations.ResetRestoresEveryRegister : Prop :=
  (∀ s : State, nextTurn s = .reset →
    ∃ t, step s = .next t ∧ t.block.latch.valid = false ∧ t.block.done = false ∧ t.block.irq = false ∧
      t.port = .idle ∧ t.block.readReg .id = 0x48433301#32 ∧ ∀ r : Reg, r ≠ .id → t.block.readReg r = 0#32) ∧
  State.reset.block.latch.valid = false ∧ State.reset.block.irq = false ∧
  State.reset.block.readReg .id = 0x48433301#32 ∧ ∀ r : Reg, r ≠ .id → State.reset.block.readReg r = 0#32

/-- The block accepts the first CMD write after reset, and a command on reset operands is well defined: INV26
completes with NONINV_MOD2, MATVEC with OK and VEC_R = (0, 0, 0) (R102, R103). Who moves when no
turn is settled is the model's choice, assumption log 2. -/
def Obligations.FirstCommandAfterResetIsAccepted : Prop :=
  (∀ w : Word, ∃ t,
    step { State.reset with host := [.write 0x00C#9 w 0b1111#4] } = .next t ∧ t.block.latch.valid = true ∧
      t.block.latch.cmd = w) ∧
  (∃ t, Host.Core.run Sys2Proof.core 2 { State.reset with host := [.write 0x00C#9 0x00000009#32 0b1111#4] } =
    .next t ∧ t.block.rc = .noninvMod2 ∧ t.block.matR = State.reset.block.matR) ∧
  ∃ t, Host.Core.run Sys2Proof.core 2 { State.reset with host := [.write 0x00C#9 0x00000008#32 0b1111#4] } =
    .next t ∧ t.block.rc = .ok ∧ t.block.vecR = ⟨0#8, 0#8, 0#8⟩

/-- No hang: an accepted command completes, within the turns already settled and one more, unless a reset is
among them (R110). That the core moves when no turn is settled is the model's choice, assumption log 2. -/
def Obligations.AcceptedCommandCompletes : Prop :=
  ∀ s : State, s.block.latch.valid = true → Turn.reset ∉ s.turns →
    ∃ (k : Nat) (t : State), k ≤ s.turns.length + 1 ∧ Host.Core.run Sys2Proof.core k s = .next t ∧
      t.block.latch.valid = false ∧ t.block.done = true

/-- The machine never stops: every state has a next state (R54, R110; the block's faults are responses and
codes). A turn with nothing to do passes, the model's choice, assumption log 2. -/
def Obligations.EveryStateHasANextState : Prop :=
  ∀ s : State, ∃ t, step s = .next t

/-- Between a completion and the next acceptance or reset, the results and RC do not change; an acceptance
changes no result register either (R107). -/
def Obligations.ResultsAreStableBetweenCompletions : Prop :=
  ∀ s t : State, step s = .next t → ¬ CompletesNext s → nextTurn s ≠ .reset →
    t.block.resScalar = s.block.resScalar ∧ t.block.resGcd = s.block.resGcd ∧
    t.block.resDetLo = s.block.resDetLo ∧ t.block.resDetHi = s.block.resDetHi ∧
    t.block.matR = s.block.matR ∧ t.block.vecR = s.block.vecR ∧
    (t.block.rc ≠ s.block.rc →
      s.block.latch.valid = false ∧ ∃ w ops, HostNext s (.write 0x00C#9 w 0b1111#4) ops)

/-- While a command is in flight, no host access changes L: only its completion or a reset does (R26, R82,
R106). -/
def Obligations.LatchIsStableWhileBusy : Prop :=
  ∀ s t : State, step s = .next t → s.block.latch.valid = true → nextTurn s ≠ .core → nextTurn s ≠ .reset →
    t.block.latch = s.block.latch

/-- The host's accesses take effect one at a time in the order of issue (R41): a host turn performs the first of
them, whole and alone, and takes it off the list; a `WAIT` is a read of STATUS that leaves the list when BUSY = 0
(R56), a wait for the interrupt makes no access and leaves it when `irq` = 1 (R42); a turn of the core or a reset
leaves the list; so what a run has used up of it is its front. The list is the model's, assumption log 1, and so
are its two waits, assumption log 11; that a turn with nothing to do passes is assumption log 2. -/
def Obligations.HostAccessesKeepTheirOrder : Prop :=
  (∀ s t : State, step s = .next t →
    (t.host = s.host ∨ ∃ op, s.host = op :: t.host) ∧
    (nextTurn s ≠ .host → t.host = s.host ∧ t.port = .idle)) ∧
  (∀ s : State, nextTurn s = .host → s.host = [] →
    step s = .next { s with turns := s.turns.tail, port := .idle }) ∧
  (∀ (s : State) (a : Addr) (ops : List HostOp), HostNext s (.read a) ops →
    step s = .next (State.memRead { s with host := ops, turns := s.turns.tail } a)) ∧
  (∀ (s : State) (a : Addr) (v : Word) (k : Strobes) (ops : List HostOp), HostNext s (.write a v k) ops →
    step s = .next (State.memWrite { s with host := ops, turns := s.turns.tail } a v k)) ∧
  (∀ (s : State) (ops : List HostOp), HostNext s .waitNotBusy ops →
    step s = .next { s with
      host := if s.block.latch.valid then s.host else ops
      turns := s.turns.tail
      port := .readDone s.block.statusWord false }) ∧
  (∀ (s : State) (ops : List HostOp), HostNext s .waitIrq ops →
    step s = .next { s with
      host := if s.block.ie && s.block.done then ops else s.host
      turns := s.turns.tail
      port := .idle }) ∧
  ∀ (k : Nat) (s t : State), Host.Core.run Sys2Proof.core k s = .next t →
    ∃ taken : List HostOp, s.host = taken ++ t.host

/-- `RUN cmd` (R56) from an idle block, wherever the completion falls among the host's polls: the command is
accepted, completes, and the last poll sees BUSY = 0; the block is then as `exec` of the command leaves the
accepted one (R81, R84, R109). `WAIT` as one operation that polls is the model's, assumption log 11; that the core
moves next when no turn is settled is its choice, assumption log 2. -/
def Obligations.RunPseudoInstructionCompletes : Prop :=
  ∀ (s : State) (i : Instr) (ops : List HostOp), i.wellFormed = true → Turn.reset ∉ s.turns →
    s.block.latch.valid = false → s.host = (HostLine.run i).expand ++ ops →
      ∃ (k : Nat) (u t : State), k ≤ s.turns.length + 3 ∧
        exec i { s with block := s.block.accept (encode i) } = .next u ∧
        Host.Core.run Sys2Proof.core k s = .next t ∧ t.block = u.block ∧ t.host = ops ∧
        t.port = .readDone u.block.statusWord false ∧ u.block.statusWord.getLsbD 0 = false

/-- A host that respects the hazards (R36, R104, R105) meets none of their consequences: no free value is read,
no overrun is set, no access errs. -/
def Obligations.DisciplinedHostMeetsNoHazard : Prop :=
  ∀ s t : State, disciplined s = true → step s = .next t →
    t.draws = s.draws ∧ (t.block.ovr = true → s.block.ovr = true) ∧ (∀ w, t.port ≠ .readDone w true) ∧
    t.port ≠ .writeDone true ∧ hostStep s = .next t

/-- The invariant of the block (RC and DONE are 0 while busy, the readback is the word in flight, LAST_OP its
opcode, every result register in its range) is kept by every step, from every state that has it. -/
def Obligations.EveryStepKeepsTheInvariant : Prop :=
  ∀ s t : State, BlockInv s.block → step s = .next t → BlockInv t.block

/-- The state after reset has the invariant. -/
def Obligations.ResetHasTheInvariant : Prop :=
  BlockInv State.reset.block
end

