-- ==== Sys2Proof/Laws/Containers.lean ====
section
/-! SUPPORT. Matrices and vectors: reading after a replacement, reading a mapped element. -/

namespace Sys2Proof

/-- Two matrices with the same nine elements are equal. -/
theorem Mat3.ext_get {α : Type} {A B : Mat3 α} (h : ∀ i, A.get i = B.get i) : A = B := by
  have h0 := h 0
  have h1 := h 1
  have h2 := h 2
  have h3 := h 3
  have h4 := h 4
  have h5 := h 5
  have h6 := h 6
  have h7 := h 7
  have h8 := h 8
  cases A
  cases B
  simp only [Mat3.get] at h0 h1 h2 h3 h4 h5 h6 h7 h8
  subst h0 h1 h2 h3 h4 h5 h6 h7 h8
  rfl

/-- Two vectors with the same three elements are equal. -/
theorem Vec3.ext_get {α : Type} {u v : Vec3 α} (h : ∀ i, u.get i = v.get i) : u = v := by
  have h0 := h 0
  have h1 := h 1
  have h2 := h 2
  cases u
  cases v
  simp only [Vec3.get] at h0 h1 h2
  subst h0 h1 h2
  rfl

theorem Mat3.get_fill {α : Type} (a : α) (i : Fin 9) : (Mat3.fill a).get i = a := by
  fin_cases i <;> rfl

theorem Vec3.get_fill {α : Type} (a : α) (i : Fin 3) : (Vec3.fill a).get i = a := by
  fin_cases i <;> rfl

theorem Mat3.get_map {α β : Type} (f : α → β) (M : Mat3 α) (i : Fin 9) : (M.map f).get i = f (M.get i) := by
  fin_cases i <;> rfl

theorem Vec3.get_map {α β : Type} (f : α → β) (v : Vec3 α) (i : Fin 3) : (v.map f).get i = f (v.get i) := by
  fin_cases i <;> rfl

theorem Mat3.entry_map {α β : Type} (f : α → β) (M : Mat3 α) (r c : Fin 3) :
    (M.map f).entry r c = f (M.entry r c) :=
  Mat3.get_map f M _

theorem Mat3.get_zipWith {α β γ : Type} (f : α → β → γ) (A : Mat3 α) (B : Mat3 β) (i : Fin 9) :
    (Mat3.zipWith f A B).get i = f (A.get i) (B.get i) := by
  fin_cases i <;> rfl

/-- Reading back an element just replaced, and reading any other. -/
theorem Mat3.get_set {α : Type} (M : Mat3 α) (i j : Fin 9) (a : α) :
    (M.set i a).get j = if j = i then a else M.get j := by
  fin_cases i <;> fin_cases j <;> rfl

/-- Reading back a component just replaced, and reading any other. -/
theorem Vec3.get_set {α : Type} (v : Vec3 α) (i j : Fin 3) (a : α) :
    (v.set i a).get j = if j = i then a else v.get j := by
  fin_cases i <;> fin_cases j <;> rfl

end Sys2Proof
end

