-- ==== Sys2Proof/Laws/Arith.lean ====
section
/-! SUPPORT. Residues and how the result registers hold them (00_scope.md R6, R7). -/

namespace Sys2Proof.Machine

/-- A residue lies in [0, m) and differs from its integer by a multiple of m (R7). -/
theorem positiveMod_spec (v : Int) {m : Nat} (h : 1 ≤ m) :
    0 ≤ positiveMod v m ∧ positiveMod v m < m ∧ (m : Int) ∣ v - positiveMod v m :=
  ⟨Int.emod_nonneg v (by omega), Int.emod_lt_of_pos v (by omega), Int.dvd_self_sub_emod⟩

/-- The gcd of the residue is the gcd of the integer (R58). -/
theorem residueGcd_eq (a : Int) {m : Nat} (h : 1 ≤ m) : residueGcd a m = Int.gcd a m := by
  have h0 := (positiveMod_spec a h).1
  have e : Int.gcd (positiveMod a m) m = Int.gcd a m := Int.gcd_emod a m
  rw [← e, Int.gcd, residueGcd]
  congr 1
  omega

/-- A non-negative result as a 32-bit register holds it. -/
theorem resultWord_eq {r : Int} (h : 0 ≤ r) : resultWord r = BitVec.ofNat 32 r.toNat := by
  obtain ⟨n, rfl⟩ := Int.eq_ofNat_of_zero_le h
  simp [resultWord]

/-- A residue below 256 as an 8-bit element holds it: nothing is lost (R6). -/
theorem resElem_toNat {r : Int} (h : 0 ≤ r) (h' : r < 256) : (BitVec.ofInt 8 r).toNat = r.toNat := by
  obtain ⟨n, rfl⟩ := Int.eq_ofNat_of_zero_le h
  simp
  omega

/-- The two halves of the determinant's word make the word again (R23). -/
theorem highWord_append_lowWord (D : BitVec 64) : highWord D ++ lowWord D = D := by
  unfold highWord lowWord
  ext i hi
  rw [BitVec.getElem_append]
  split
  · simp
    rw [BitVec.getLsbD_eq_getElem]
  · simp
    rw [show 32 + (i - 32) = i by omega, BitVec.getLsbD_eq_getElem]

end Sys2Proof.Machine
end

