-- ==== Sys2Proof/Laws/Decode.lean ====
section
/-! SUPPORT. The fields of a command word and what the decoder makes of them. -/

namespace Sys2Proof

theorem opcodeField_commandWord (op m : BitVec 8) : opcodeField (commandWord op m) = op := by
  change (0#16 ++ m ++ op : BitVec (16 + 8 + 8)).extractLsb' 0 8 = op
  ext i hi
  rw [BitVec.getElem_extractLsb', BitVec.getLsbD_append, if_pos (by omega)]
  simp [hi]

theorem modulusField_commandWord (op m : BitVec 8) : modulusField (commandWord op m) = m := by
  change (0#16 ++ m ++ op : BitVec (16 + 8 + 8)).extractLsb' 8 8 = m
  ext i hi
  rw [BitVec.getElem_extractLsb', BitVec.getLsbD_append, if_neg (by omega), BitVec.getLsbD_append,
    if_pos (by omega)]
  simp [hi]

theorem reservedField_commandWord (op m : BitVec 8) : reservedField (commandWord op m) = 0 := by
  change (0#16 ++ m ++ op : BitVec (16 + 8 + 8)).extractLsb' 16 16 = 0
  ext i hi
  rw [BitVec.getElem_extractLsb', BitVec.getLsbD_append, if_neg (by omega), BitVec.getLsbD_append,
    if_neg (by omega)]
  simp

/-- A word is its three fields. -/
theorem word_of_fields (w : Word) : reservedField w ++ modulusField w ++ opcodeField w = w := by
  ext i hi
  simp only [BitVec.getElem_append, reservedField, modulusField, opcodeField, BitVec.getElem_extractLsb']
  split
  · simp [BitVec.getLsbD_eq_getElem hi]
  · split
    · rw [show 8 + (i - 8) = i by omega, BitVec.getLsbD_eq_getElem hi]
    · rw [show 16 + (i - 8 - 8) = i by omega, BitVec.getLsbD_eq_getElem hi]

/-- What the decoder says of a word with the fields of a command. -/
theorem decode_commandWord (op m : BitVec 8) : decode (commandWord op m) =
    match opcodeMap op.toNat m.toNat with
    | none => .error .reservedOpcode
    | some i => if i.modulus? = none ∧ m ≠ 0 then .error .modulusFieldNotZero else .ok i := by
  simp only [decode, opcodeField_commandWord, modulusField_commandWord, reservedField_commandWord]
  rfl

/-- The opcode map has a command for 0x01..0x09 alone (R48, R49). -/
theorem opcodeMap_isSome (op m : Nat) : (opcodeMap op m).isSome = true ↔ 1 ≤ op ∧ op ≤ 9 := by
  constructor
  · intro h
    unfold opcodeMap at h
    split at h <;> simp_all
  · rintro ⟨h1, h9⟩
    interval_cases op <;> rfl

end Sys2Proof
end

