-- ==== Sys2Proof/Laws/State.lean ====
section
/-! SUPPORT. What each operation leaves in each field of the state, by definition: no later proof unfolds a
record update. -/

namespace Sys2Proof.Machine

/-! ## Acceptance (R81) -/

@[simp] theorem Block.accept_latch (b : Block) (w : Word) : (b.accept w).latch =
    { valid := true, cmd := w, opa := b.opa, matA := b.matA, matB := b.matB, vec := b.vec } := rfl
@[simp] theorem Block.accept_done (b : Block) (w : Word) : (b.accept w).done = false := rfl
@[simp] theorem Block.accept_rc (b : Block) (w : Word) : (b.accept w).rc = .ok := rfl
@[simp] theorem Block.accept_lastOp (b : Block) (w : Word) : (b.accept w).lastOp = opcodeField w := rfl
@[simp] theorem Block.accept_cmd (b : Block) (w : Word) : (b.accept w).cmd = w := rfl
@[simp] theorem Block.accept_ie (b : Block) (w : Word) : (b.accept w).ie = b.ie := rfl
@[simp] theorem Block.accept_ovr (b : Block) (w : Word) : (b.accept w).ovr = b.ovr := rfl
@[simp] theorem Block.accept_opa (b : Block) (w : Word) : (b.accept w).opa = b.opa := rfl
@[simp] theorem Block.accept_matA (b : Block) (w : Word) : (b.accept w).matA = b.matA := rfl
@[simp] theorem Block.accept_matB (b : Block) (w : Word) : (b.accept w).matB = b.matB := rfl
@[simp] theorem Block.accept_vec (b : Block) (w : Word) : (b.accept w).vec = b.vec := rfl
@[simp] theorem Block.accept_resScalar (b : Block) (w : Word) : (b.accept w).resScalar = b.resScalar := rfl
@[simp] theorem Block.accept_resGcd (b : Block) (w : Word) : (b.accept w).resGcd = b.resGcd := rfl
@[simp] theorem Block.accept_resDetLo (b : Block) (w : Word) : (b.accept w).resDetLo = b.resDetLo := rfl
@[simp] theorem Block.accept_resDetHi (b : Block) (w : Word) : (b.accept w).resDetHi = b.resDetHi := rfl
@[simp] theorem Block.accept_matR (b : Block) (w : Word) : (b.accept w).matR = b.matR := rfl
@[simp] theorem Block.accept_vecR (b : Block) (w : Word) : (b.accept w).vecR = b.vecR := rfl

/-! ## Completion (R84, R85) -/

@[simp] theorem Block.complete_rc (b : Block) (c : Completion) : (b.complete c).rc = c.rc := rfl
@[simp] theorem Block.complete_done (b : Block) (c : Completion) : (b.complete c).done = true := rfl
@[simp] theorem Block.complete_latch (b : Block) (c : Completion) :
    (b.complete c).latch = { b.latch with valid := false } := rfl
@[simp] theorem Block.complete_ie (b : Block) (c : Completion) : (b.complete c).ie = b.ie := rfl
@[simp] theorem Block.complete_ovr (b : Block) (c : Completion) : (b.complete c).ovr = b.ovr := rfl
@[simp] theorem Block.complete_lastOp (b : Block) (c : Completion) : (b.complete c).lastOp = b.lastOp := rfl
@[simp] theorem Block.complete_cmd (b : Block) (c : Completion) : (b.complete c).cmd = b.cmd := rfl
@[simp] theorem Block.complete_opa (b : Block) (c : Completion) : (b.complete c).opa = b.opa := rfl
@[simp] theorem Block.complete_matA (b : Block) (c : Completion) : (b.complete c).matA = b.matA := rfl
@[simp] theorem Block.complete_matB (b : Block) (c : Completion) : (b.complete c).matB = b.matB := rfl
@[simp] theorem Block.complete_vec (b : Block) (c : Completion) : (b.complete c).vec = b.vec := rfl
@[simp] theorem Block.complete_resScalar (b : Block) (c : Completion) :
    (b.complete c).resScalar = c.writes.resScalar.getD b.resScalar := rfl
@[simp] theorem Block.complete_resGcd (b : Block) (c : Completion) :
    (b.complete c).resGcd = c.writes.resGcd.getD b.resGcd := rfl
@[simp] theorem Block.complete_resDetLo (b : Block) (c : Completion) :
    (b.complete c).resDetLo = (c.writes.resDet.map lowWord).getD b.resDetLo := rfl
@[simp] theorem Block.complete_resDetHi (b : Block) (c : Completion) :
    (b.complete c).resDetHi = (c.writes.resDet.map highWord).getD b.resDetHi := rfl
@[simp] theorem Block.complete_matR (b : Block) (c : Completion) :
    (b.complete c).matR = c.writes.matR.getD b.matR := rfl
@[simp] theorem Block.complete_vecR (b : Block) (c : Completion) :
    (b.complete c).vecR = c.writes.vecR.getD b.vecR := rfl

@[simp] theorem State.complete_block (s : State) (c : Completion) :
    (s.complete c).block = s.block.complete c := rfl
@[simp] theorem State.complete_host (s : State) (c : Completion) : (s.complete c).host = s.host := rfl
@[simp] theorem State.complete_turns (s : State) (c : Completion) : (s.complete c).turns = s.turns := rfl
@[simp] theorem State.complete_port (s : State) (c : Completion) : (s.complete c).port = s.port := rfl
@[simp] theorem State.complete_draws (s : State) (c : Completion) : (s.complete c).draws = s.draws := rfl

/-! ## Writes to STATUS and CTRL (R13, R14) -/

@[simp] theorem Block.writeStatus_done (b : Block) (v : Word) :
    (b.writeStatus v).done = (b.done && !v.getLsbD 1) := rfl
@[simp] theorem Block.writeStatus_ovr (b : Block) (v : Word) :
    (b.writeStatus v).ovr = (b.ovr && !v.getLsbD 2) := rfl
@[simp] theorem Block.writeStatus_latch (b : Block) (v : Word) : (b.writeStatus v).latch = b.latch := rfl
@[simp] theorem Block.writeCtrl_ie (b : Block) (v : Word) : (b.writeCtrl v).ie = v.getLsbD 0 := rfl
@[simp] theorem Block.writeCtrl_done (b : Block) (v : Word) : (b.writeCtrl v).done = b.done := rfl
@[simp] theorem Block.writeCtrl_latch (b : Block) (v : Word) : (b.writeCtrl v).latch = b.latch := rfl

/-! ## Reset and steps without an access -/

@[simp] theorem State.resetBlock_block (s : State) : s.resetBlock.block = Block.reset := rfl
@[simp] theorem State.resetBlock_host (s : State) : s.resetBlock.host = s.host := rfl
@[simp] theorem State.resetBlock_turns (s : State) : s.resetBlock.turns = s.turns := rfl
@[simp] theorem State.resetBlock_port (s : State) : s.resetBlock.port = .idle := rfl
@[simp] theorem State.resetBlock_draws (s : State) : s.resetBlock.draws = s.draws := rfl
@[simp] theorem State.noAccess_block (s : State) : s.noAccess.block = s.block := rfl
@[simp] theorem State.noAccess_host (s : State) : s.noAccess.host = s.host := rfl
@[simp] theorem State.noAccess_turns (s : State) : s.noAccess.turns = s.turns := rfl
@[simp] theorem State.noAccess_port (s : State) : s.noAccess.port = .idle := rfl
@[simp] theorem State.noAccess_draws (s : State) : s.noAccess.draws = s.draws := rfl

end Sys2Proof.Machine
end

