-- ==== Sys2Proof/Laws/Ops.lean ====
section
/-! SUPPORT. What each shared operation can do, said once: the modulus guard, completion without results, the
register map, register writes, the two port transactions. -/

namespace Sys2Proof.Machine

/-! ## Completion -/

theorem guardModulus_zero (c : Completion) : guardModulus 0 c = Completion.failed .illegalOperand := rfl

theorem guardModulus_pos {m : Nat} (h : 1 ≤ m) (c : Completion) : guardModulus m c = c := by
  unfold guardModulus
  rw [if_neg (by omega)]

/-- A completion without results changes STATUS and L.valid alone (R84, R85). -/
theorem State.complete_failed (s : State) (rc : ResultCode) :
    s.complete (Completion.failed rc) = Safety.completed s s.block rc := rfl

/-! ## The register map -/

/-- The register at the address of a register is that register (R11). -/
theorem Reg.ofAddr_addr (r : Reg) : Reg.ofAddr r.addr = some r := by
  cases r with
  | matA i => fin_cases i <;> rfl
  | matB i => fin_cases i <;> rfl
  | vec i => fin_cases i <;> rfl
  | matR i => fin_cases i <;> rfl
  | vecR i => fin_cases i <;> rfl
  | _ => rfl

/-- Every register's address is a multiple of 4 (R11). -/
theorem Reg.aligned_addr (r : Reg) : aligned r.addr = true := by
  cases r with
  | matA i => fin_cases i <;> rfl
  | matB i => fin_cases i <;> rfl
  | vec i => fin_cases i <;> rfl
  | matR i => fin_cases i <;> rfl
  | vecR i => fin_cases i <;> rfl
  | _ => rfl

/-- A register is found at its own address only. -/
theorem Reg.addr_of_ofAddr {a : Addr} {r : Reg} (h : Reg.ofAddr a = some r) : r.addr = a := by
  have := List.find?_some h
  simpa using this

/-! ## Writes to registers -/

/-- A CMD write is an acceptance or an overrun (R81, R82). -/
theorem Block.presentCommand_cases (b : Block) (w : Word) :
    (b.latch.valid = false ∧ b.presentCommand w = b.accept w) ∨
      (b.latch.valid = true ∧ b.presentCommand w = { b with ovr := true }) := by
  unfold Block.presentCommand Block.busy Block.dropCommand
  cases h : b.latch.valid <;> simp

/-- A write changes an operand register alone, CTRL.IE alone, DONE and OVR alone, or presents a command; a
register that is read-only keeps the block as it is (R12-R25). -/
theorem Block.writeReg_cases (b : Block) (r : Reg) (v : Word) :
    (r.isOperand = true ∧ (b.writeReg r v).latch = b.latch ∧ (b.writeReg r v).ie = b.ie ∧
      (b.writeReg r v).done = b.done ∧ (b.writeReg r v).ovr = b.ovr ∧ (b.writeReg r v).rc = b.rc ∧
      (b.writeReg r v).lastOp = b.lastOp ∧ (b.writeReg r v).cmd = b.cmd ∧
      (b.writeReg r v).resScalar = b.resScalar ∧ (b.writeReg r v).resGcd = b.resGcd ∧
      (b.writeReg r v).resDetLo = b.resDetLo ∧ (b.writeReg r v).resDetHi = b.resDetHi ∧
      (b.writeReg r v).matR = b.matR ∧ (b.writeReg r v).vecR = b.vecR) ∨
    (r = .ctrl ∧ b.writeReg r v = { b with ie := v.getLsbD 0 }) ∨
    (r = .status ∧ b.writeReg r v = { b with done := b.done && !v.getLsbD 1, ovr := b.ovr && !v.getLsbD 2 }) ∨
    (r = .cmd ∧ b.writeReg r v = b.presentCommand v) ∨
    ((r = .id ∨ r.isResult = true) ∧ b.writeReg r v = b) := by
  cases r <;> simp [Block.writeReg, Reg.isOperand, Reg.isResult, Block.writeCtrl, Block.writeStatus]

/-- What a read of an operand register returns after a write to it (R17-R20). -/
theorem Block.readReg_writeReg_operand (b : Block) {r : Reg} (h : r.isOperand = true) (v : Word) :
    (b.writeReg r v).readReg r = if r = .opa then v else loadElem (storeElem v) := by
  cases r <;> simp_all [Reg.isOperand, Block.writeReg, Block.readReg, Mat3.get_set, Vec3.get_set]

/-- A write to an operand register leaves what any other register reads (R17-R20). -/
theorem Block.readReg_writeReg_other (b : Block) {r q : Reg} (h : r.isOperand = true) (hq : q ≠ r) (v : Word) :
    (b.writeReg r v).readReg q = b.readReg q := by
  cases r <;> simp [Reg.isOperand] at h <;> cases q <;>
    simp_all [Block.writeReg, Block.readReg, Mat3.get_set, Vec3.get_set, Block.ctrlWord, Block.statusWord,
      Block.busy]

/-! ## The port -/

/-- A read changes the port's outputs, and the count of free values, alone (R39). -/
theorem State.memRead_frame (s : State) (a : Addr) : (s.memRead a).block = s.block ∧
    (s.memRead a).host = s.host ∧ (s.memRead a).turns = s.turns := by
  unfold State.memRead
  split
  · exact ⟨rfl, rfl, rfl⟩
  · split
    · exact ⟨rfl, rfl, rfl⟩
    · split <;> exact ⟨rfl, rfl, rfl⟩

@[simp] theorem State.memRead_block (s : State) (a : Addr) : (s.memRead a).block = s.block :=
  (s.memRead_frame a).1
@[simp] theorem State.memRead_host (s : State) (a : Addr) : (s.memRead a).host = s.host :=
  (s.memRead_frame a).2.1
@[simp] theorem State.memRead_turns (s : State) (a : Addr) : (s.memRead a).turns = s.turns :=
  (s.memRead_frame a).2.2

/-- A read of a register, aligned as every register is (R34, R104). -/
theorem State.memRead_reg (s : State) (r : Reg) : s.memRead r.addr =
    if r.isResult = true ∧ s.block.latch.valid = true then
      { s with port := .readDone (Config.freeRead s.draws) false, draws := s.draws + 1 }
    else { s with port := .readDone (s.block.readReg r) false } := by
  unfold State.memRead
  simp only [Reg.aligned_addr, Reg.ofAddr_addr, Block.busy, Bool.and_eq_true]
  rfl

/-- A write of a whole word to a register (R35). -/
theorem State.memWrite_reg (s : State) (r : Reg) (v : Word) : s.memWrite r.addr v 0b1111#4 =
    { s with block := s.block.writeReg r v, port := .writeDone false } := by
  unfold State.memWrite
  simp only [Reg.aligned_addr, Reg.ofAddr_addr]
  rfl

/-- A write is a bus error, falls on a reserved address, or applies a register's write rule (R35, R36, R38). -/
theorem State.memWrite_cases (s : State) (a : Addr) (v : Word) (k : Strobes) :
    ((aligned a = false ∨ k ≠ 0b1111#4) ∧ s.memWrite a v k = { s with port := .writeDone true }) ∨
    (aligned a = true ∧ k = 0b1111#4 ∧ Reg.ofAddr a = none ∧
      s.memWrite a v k = { s with port := .writeDone false }) ∨
    (∃ r : Reg, r.addr = a ∧ k = 0b1111#4 ∧
      s.memWrite a v k = { s with block := s.block.writeReg r v, port := .writeDone false }) := by
  by_cases hk : k = 0b1111#4
  · subst hk
    cases hr : Reg.ofAddr a with
    | some r =>
      refine .inr (.inr ⟨r, Reg.addr_of_ofAddr hr, rfl, ?_⟩)
      rw [← Reg.addr_of_ofAddr hr, State.memWrite_reg]
    | none =>
      cases ha : aligned a with
      | false => exact .inl ⟨.inl rfl, by simp [State.memWrite, ha]⟩
      | true => exact .inr (.inl ⟨rfl, rfl, rfl, by simp [State.memWrite, ha, hr]⟩)
  · exact .inl ⟨.inr hk, by simp [State.memWrite, hk]⟩

end Sys2Proof.Machine
end

