-- ==== Sys2Proof/Laws/Exec.lean ====
section
/-! SUPPORT. Every command completes: `exec` always answers the state after one completion, whose contents are a
function of L alone (60_exceptions.md R83). -/

namespace Sys2Proof.Machine

/-- `Exec(L)` for a decoded command (R83). -/
def commandResult : Instr → Latch → Completion
  | .pmod m, L => pmodResult m L
  | .modinv m, L => modinvResult m L
  | .detm m, L => detmResult m L
  | .adjm m, L => adjmResult m L
  | .redm m, L => redmResult m L
  | .scalem m, L => scalemResult m L
  | .crt, L => crtResult L
  | .matvec, L => matvecResult L
  | .inv26, L => inv26Result L

/-- The meaning of every command is the completion of what it computes from L (R84). -/
theorem exec_eq (i : Instr) (s : State) : exec i s = .next (s.complete (commandResult i s.block.latch)) := by
  cases i <;> rfl

/-- `Exec(L)` for the latched word: its command's result, or ILLEGAL_COMMAND (R83, R53). -/
def latchResult (L : Latch) : Completion :=
  match decode L.cmd with
  | .ok i => commandResult i L
  | .error _ => Completion.failed .illegalCommand

/-- The core's step is the completion of what it computes from L (R84). -/
theorem completeLatched_eq (s : State) :
    completeLatched s = .next (s.complete (latchResult s.block.latch)) := by
  unfold completeLatched latchResult
  cases decode s.block.latch.cmd with
  | ok i => exact exec_eq i s
  | error e => rfl

theorem coreTurn_busy {s : State} (h : s.block.latch.valid = true) :
    coreTurn s = .next (s.noAccess.complete (latchResult s.block.latch)) := by
  unfold coreTurn
  rw [if_pos h, completeLatched_eq]
  rfl

theorem coreTurn_idle {s : State} (h : s.block.latch.valid = false) : coreTurn s = .next s.noAccess := by
  unfold coreTurn
  simp [h]

end Sys2Proof.Machine
end

