-- ==== Sys2Proof/Laws/Flags.lean ====
section
/-! SUPPORT. Where a read of STATUS puts each field (10_state.md R14). -/

namespace Sys2Proof.Machine

theorem getLsbD_append_low {n m : Nat} (a : BitVec n) (b : BitVec m) {i : Nat} (h : i < m) :
    (a ++ b).getLsbD i = b.getLsbD i := by
  rw [BitVec.getLsbD_append, if_pos h]

theorem getLsbD_append_high {n m : Nat} (a : BitVec n) (b : BitVec m) {i : Nat} (h : m ≤ i) :
    (a ++ b).getLsbD i = a.getLsbD (i - m) := by
  rw [BitVec.getLsbD_append, if_neg (by omega)]

/-- The word of R14 with its fields as given. -/
theorem status_word_fields (lastOp : BitVec 8) (rc : BitVec 4) (ovr done busy : Bool) (w : Word)
    (hw : w = 0#16 ++ lastOp ++ rc ++ 0#1 ++ BitVec.ofBool ovr ++ BitVec.ofBool done ++ BitVec.ofBool busy) :
    w.getLsbD 0 = busy ∧ w.getLsbD 1 = done ∧ w.getLsbD 2 = ovr ∧ w.getLsbD 3 = false ∧
      w.extractLsb' 4 4 = rc ∧ w.extractLsb' 8 8 = lastOp ∧ w.extractLsb' 16 16 = 0#16 := by
  change w = (0#16 ++ lastOp ++ rc ++ 0#1 ++ BitVec.ofBool ovr ++ BitVec.ofBool done ++ BitVec.ofBool busy :
    BitVec (16 + 8 + 4 + 1 + 1 + 1 + 1)) at hw
  refine ⟨?_, ?_, ?_, ?_, ?_, ?_, ?_⟩
  · rw [hw, getLsbD_append_low _ _ (by omega)]
    simp
  · rw [hw, getLsbD_append_high _ _ (by omega), getLsbD_append_low _ _ (by omega)]
    simp
  · rw [hw, getLsbD_append_high _ _ (by omega), getLsbD_append_high _ _ (by omega),
      getLsbD_append_low _ _ (by omega)]
    simp
  · rw [hw, getLsbD_append_high _ _ (by omega), getLsbD_append_high _ _ (by omega),
      getLsbD_append_high _ _ (by omega), getLsbD_append_low _ _ (by omega)]
    simp
  · ext i hi
    rw [BitVec.getElem_extractLsb', hw, getLsbD_append_high _ _ (by omega), getLsbD_append_high _ _ (by omega),
      getLsbD_append_high _ _ (by omega), getLsbD_append_high _ _ (by omega), getLsbD_append_low _ _ (by omega),
      show 4 + i - 1 - 1 - 1 - 1 = i by omega, BitVec.getLsbD_eq_getElem hi]
  · ext i hi
    rw [BitVec.getElem_extractLsb', hw, getLsbD_append_high _ _ (by omega), getLsbD_append_high _ _ (by omega),
      getLsbD_append_high _ _ (by omega), getLsbD_append_high _ _ (by omega), getLsbD_append_high _ _ (by omega),
      getLsbD_append_low _ _ (by omega), show 8 + i - 1 - 1 - 1 - 1 - 4 = i by omega,
      BitVec.getLsbD_eq_getElem hi]
  · ext i hi
    rw [BitVec.getElem_extractLsb', hw, getLsbD_append_high _ _ (by omega), getLsbD_append_high _ _ (by omega),
      getLsbD_append_high _ _ (by omega), getLsbD_append_high _ _ (by omega), getLsbD_append_high _ _ (by omega),
      getLsbD_append_high _ _ (by omega)]
    simp

/-- The fields of STATUS as the block's read returns them. -/
theorem Block.statusWord_fields (b : Block) :
    b.statusWord.getLsbD 0 = b.latch.valid ∧ b.statusWord.getLsbD 1 = b.done ∧
      b.statusWord.getLsbD 2 = b.ovr ∧ b.statusWord.getLsbD 3 = false ∧
      b.statusWord.extractLsb' 4 4 = b.rc.code ∧ b.statusWord.extractLsb' 8 8 = b.lastOp ∧
      b.statusWord.extractLsb' 16 16 = 0#16 :=
  status_word_fields b.lastOp b.rc.code b.ovr b.done b.latch.valid b.statusWord rfl

end Sys2Proof.Machine
end

