-- ==== Sys2Proof/Laws/HostProgram.lean ====
section
/-! SUPPORT. What the assembler's readers of digits and literals accept, said once (30_encoding.md R55). -/

namespace Sys2Proof.Machine

open Sys2Proof.Safety

/-- A hexadecimal digit is one of the table, with the table's value. -/
theorem hexDigit_iff (c : Char) (v : Nat) : hexDigit c = some v ↔ (c, v) ∈ digitTable ∧ v < 16 := by
  constructor
  · intro h
    have hc : Char.ofNat c.toNat = c := Char.ofNat_toNat c
    unfold hexDigit at h
    split at h
    · obtain ⟨h1, h2⟩ := ‹48 ≤ c.toNat ∧ c.toNat ≤ 57›
      injection h with h
      generalize c.toNat = n at *
      subst hc h
      interval_cases n <;> decide
    · split at h
      · obtain ⟨h1, h2⟩ := ‹65 ≤ c.toNat ∧ c.toNat ≤ 70›
        injection h with h
        generalize c.toNat = n at *
        subst hc h
        interval_cases n <;> decide
      · split at h
        · obtain ⟨h1, h2⟩ := ‹97 ≤ c.toNat ∧ c.toNat ≤ 102›
          injection h with h
          generalize c.toNat = n at *
          subst hc h
          interval_cases n <;> decide
        · cases h
  · rintro ⟨h, -⟩
    have all : ∀ p ∈ digitTable, hexDigit p.1 = some p.2 := by decide
    exact all _ h

/-- A decimal digit is a hexadecimal one below 10. -/
theorem decDigit_iff (c : Char) (v : Nat) : decDigit c = some v ↔ (c, v) ∈ digitTable ∧ v < 10 := by
  have e : decDigit c = some v ↔ hexDigit c = some v ∧ v < 10 := by
    unfold decDigit hexDigit
    split
    · simp
      omega
    · split
      · simp
        omega
      · split
        · simp
          omega
        · simp
  rw [e, hexDigit_iff]
  constructor
  · rintro ⟨⟨h, -⟩, h'⟩
    exact ⟨h, h'⟩
  · rintro ⟨h, h'⟩
    exact ⟨⟨h, by omega⟩, h'⟩

/-- Reading digits gives the value of the numeral they are, on top of what was read before. -/
theorem readDigits_iff {base : Nat} {digit : Char → Option Nat}
    (hd : ∀ c v, digit c = some v ↔ (c, v) ∈ digitTable ∧ v < base) (cs : List Char) (acc n : Nat) :
    readDigits base digit cs acc = some n ↔
      ∃ vs : List Nat, List.Forall₂ (fun c v => (c, v) ∈ digitTable ∧ v < base) cs vs ∧
        n = vs.foldl (fun a v => base * a + v) acc := by
  induction cs generalizing acc with
  | nil =>
    simp only [readDigits, Option.some.injEq, List.forall₂_nil_left_iff, exists_eq_left, List.foldl_nil]
    exact eq_comm
  | cons c cs ih =>
    rw [readDigits]
    cases h : digit c with
    | none =>
      simp only [reduceCtorEq, false_iff]
      rintro ⟨vs, h2, -⟩
      cases h2 with
      | cons hv _ => rw [(hd _ _).mpr hv] at h; cases h
    | some d =>
      rw [ih]
      constructor
      · rintro ⟨vs, h2, rfl⟩
        exact ⟨d :: vs, .cons ((hd _ _).mp h) h2, rfl⟩
      · rintro ⟨vs, h2, rfl⟩
        cases h2 with
        | cons hv ht =>
          rw [(hd _ _).mpr hv] at h
          injection h with h
          subst h
          exact ⟨_, ht, rfl⟩

/-- A decimal numeral, read from its first digit. -/
theorem readDecimal_iff {ds : List Char} (h : ds ≠ []) (n : Nat) :
    readDigits 10 decDigit ds 0 = some n ↔ IsNumeral 10 ds n := by
  rw [readDigits_iff decDigit_iff, IsNumeral]
  exact ⟨fun e => ⟨h, e⟩, fun e => e.2⟩

/-- A hexadecimal numeral, read from its first digit. -/
theorem readHexadecimal_iff {ds : List Char} (h : ds ≠ []) (n : Nat) :
    readDigits 16 hexDigit ds 0 = some n ↔ IsNumeral 16 ds n := by
  rw [readDigits_iff hexDigit_iff, IsNumeral]
  exact ⟨fun e => ⟨h, e⟩, fun e => e.2⟩

/-- `x` is no digit, so no decimal numeral begins `0x`. -/
theorem not_decimal_of_prefix (ds : List Char) (n : Nat) : ¬ IsNumeral 10 ('0' :: 'x' :: ds) n := by
  rintro ⟨-, vs, h, -⟩
  cases h with
  | cons _ h =>
    cases h with
    | cons h _ => exact absurd ((hexDigit_iff _ _).mpr ⟨h.1, by omega⟩) (by simp [hexDigit])

/-- What reads as a literal is a decimal literal or a `0x` hexadecimal one (R55). -/
theorem readLiteral_iff (text : List Char) (m : Nat) : readLiteral text = some m ↔ IsLiteral text m := by
  unfold readLiteral IsLiteral
  split
  · simp [IsNumeral]
  · simp only [reduceCtorEq, false_iff, not_or, not_exists, not_and]
    refine ⟨not_decimal_of_prefix _ _, fun ds h h' => ?_⟩
    simp only [List.cons.injEq, true_and] at h
    exact h'.1 h.symm
  · rename_i cs hne
    have hcs : cs ≠ [] := fun h => hne (by rw [h])
    rw [readHexadecimal_iff hcs]
    constructor
    · exact fun h => .inr ⟨cs, rfl, h⟩
    · rintro (h | ⟨ds, h, h'⟩)
      · exact absurd h (not_decimal_of_prefix _ _)
      · simp only [List.cons.injEq, true_and] at h
        rw [h]
        exact h'
  · rename_i h0 h1 h2
    rw [readDecimal_iff h0]
    exact ⟨.inl, fun h => h.elim id fun ⟨ds, e, _⟩ => absurd e (h2 ds)⟩

end Sys2Proof.Machine
end

