-- ==== Sys2Proof/Laws/PerInstr.lean ====
section
/-! SUPPORT. One lemma per instruction about its encoding: the word of a well-formed command decodes to it. -/

namespace Sys2Proof.Laws.RoundTrip

/-- Decoding the word of a well-formed command gives it back. -/
def Statement (i : Instr) : Prop := i.wellFormed = true → decode (encode i) = .ok i

theorem modulus_toNat {m : Nat} (h : decide (m < 256) = true) : (BitVec.ofNat 8 m).toNat = m := by
  rw [BitVec.toNat_ofNat]
  exact Nat.mod_eq_of_lt (of_decide_eq_true h)

theorem pmod (m : Nat) : Statement (.pmod m) := by
  intro h
  simp only [encode, decode_commandWord, Instr.modulus?, Option.getD_some, modulus_toNat h]
  rfl

theorem modinv (m : Nat) : Statement (.modinv m) := by
  intro h
  simp only [encode, decode_commandWord, Instr.modulus?, Option.getD_some, modulus_toNat h]
  rfl

theorem detm (m : Nat) : Statement (.detm m) := by
  intro h
  simp only [encode, decode_commandWord, Instr.modulus?, Option.getD_some, modulus_toNat h]
  rfl

theorem adjm (m : Nat) : Statement (.adjm m) := by
  intro h
  simp only [encode, decode_commandWord, Instr.modulus?, Option.getD_some, modulus_toNat h]
  rfl

theorem redm (m : Nat) : Statement (.redm m) := by
  intro h
  simp only [encode, decode_commandWord, Instr.modulus?, Option.getD_some, modulus_toNat h]
  rfl

theorem scalem (m : Nat) : Statement (.scalem m) := by
  intro h
  simp only [encode, decode_commandWord, Instr.modulus?, Option.getD_some, modulus_toNat h]
  rfl

theorem crt : Statement .crt := fun _ => rfl

theorem matvec : Statement .matvec := fun _ => rfl

theorem inv26 : Statement .inv26 := fun _ => rfl

end Sys2Proof.Laws.RoundTrip
end

