-- ==== Sys2Proof/Laws/Step.lean ====
section
/-! SUPPORT. What one step can do to the block, said once (20_memory.md R41): reset, the completion of the command
in flight, one host write, or nothing. -/

namespace Sys2Proof.Machine

/-- The block after the host's turn: as before, or after the write at the head of the host's list. -/
theorem hostTurn_cases (s t : State) (h : hostTurn s = .next t) :
    t.block = s.block ∨
      ∃ (r : Reg) (v : Word) (ops : List HostOp), s.host = .write r.addr v 0b1111#4 :: ops ∧
        t = { s with block := s.block.writeReg r v, host := ops, port := .writeDone false } := by
  unfold hostTurn at h
  split at h
  · injection h with h
    subst h
    exact .inl rfl
  · injection h with h
    subst h
    simp
  · rename_i a v k ops hs
    injection h with h
    subst h
    rcases State.memWrite_cases { s with host := ops } a v k with ⟨-, e⟩ | ⟨-, -, -, e⟩ | ⟨r, ha, hk, e⟩
    · exact .inl (by rw [e])
    · exact .inl (by rw [e])
    · subst ha hk
      exact .inr ⟨r, v, ops, hs, e⟩
  · split at h <;> injection h with h <;> subst h <;> simp
  · split at h <;> injection h with h <;> subst h <;> exact .inl rfl

/-- What a step can do: reset, completion, a host write of one register, or no change to the block. -/
theorem step_cases (s t : State) (h : step s = .next t) :
    (nextTurn s = .reset ∧ t.block = Block.reset) ∨
    (nextTurn s = .core ∧ s.block.latch.valid = true ∧
      t.block = s.block.complete (latchResult s.block.latch)) ∨
    (∃ (r : Reg) (v : Word) (ops : List HostOp), nextTurn s = .host ∧
      s.host = .write r.addr v 0b1111#4 :: ops ∧ t.block = s.block.writeReg r v) ∨
    t.block = s.block := by
  unfold step takeTurn at h
  cases hn : nextTurn s with
  | reset =>
    rw [hn] at h
    injection h with h
    subst h
    exact .inl ⟨rfl, rfl⟩
  | core =>
    rw [hn] at h
    cases hv : s.block.latch.valid with
    | true =>
      have e := coreTurn_busy (s := { s with turns := s.turns.tail }) hv
      injection e.symm.trans h with h
      subst h
      exact .inr (.inl ⟨rfl, rfl, rfl⟩)
    | false =>
      have e := coreTurn_idle (s := { s with turns := s.turns.tail }) hv
      injection e.symm.trans h with h
      subst h
      exact .inr (.inr (.inr rfl))
  | host =>
    rw [hn] at h
    rcases hostTurn_cases _ _ h with e | ⟨r, v, ops, hs, e⟩
    · exact .inr (.inr (.inr e))
    · exact .inr (.inr (.inl ⟨r, v, ops, rfl, hs, by rw [e]⟩))

/-! ## The forms of a step -/

open Sys2Proof.Safety

/-- The host's write of a whole word to a register, as a step. -/
theorem step_of_host_write {s : State} {r : Reg} {v : Word} {ops : List HostOp}
    (h : HostNext s (.write r.addr v 0b1111#4) ops) :
    step s = .next { s with
      host := ops
      turns := s.turns.tail
      port := .writeDone false
      block := s.block.writeReg r v } := by
  simp only [step, h.1, takeTurn, hostTurn, h.2, State.memWrite_reg]

/-- The host's read of a register, as a step. -/
theorem step_of_host_read {s : State} {r : Reg} {ops : List HostOp} (h : HostNext s (.read r.addr) ops) :
    step s = .next (({ s with host := ops, turns := s.turns.tail } : State).memRead r.addr) := by
  simp only [step, h.1, takeTurn, hostTurn, h.2]

/-- A completion, as a step (R84). -/
theorem step_of_completion {s : State} (h : CompletesNext s) :
    step s = .next ((inTurn s).complete (latchResult s.block.latch)) := by
  have e := coreTurn_busy (s := { s with turns := s.turns.tail }) h.2
  simp only [step, h.1, takeTurn]
  rw [e]
  rfl

/-- A reset, as a step (R101). -/
theorem step_of_reset {s : State} (h : nextTurn s = .reset) :
    step s = .next (State.resetBlock { s with turns := s.turns.tail }) := by
  simp only [step, h, takeTurn]

/-- One step more of a run. -/
theorem run_succ (k : Nat) {s t : State} (h : step s = .next t) :
    Host.Core.run Sys2Proof.core (k + 1) s = Host.Core.run Sys2Proof.core k t := by
  have e : Sys2Proof.core.step s = .next t := h
  simp only [Host.Core.run, e]

end Sys2Proof.Machine
end

