-- ==== Sys2Proof/Tests/Slice0.lean ====
section
/-! SUPPORT. The model's own tests. Expected values come from the spec: the encodings of 30_encoding.md R46-R56 and
the vectors of 95_test_vectors.md, cited at each test. The second half shows, for every obligation with hypotheses,
a concrete state and operands that meet them together. -/

namespace Sys2Proof.Tests

open Sys2Proof Sys2Proof.Machine Sys2Proof.Safety

/-! ## States to test on -/

/-- Nine 16-bit elements from their integers. -/
def elems (a b c d e f g h i : Int) : Mat3 Elem :=
  Mat3.map (BitVec.ofInt 16) ⟨a, b, c, d, e, f, g, h, i⟩

/-- Three 16-bit elements from their integers. -/
def comps (a b c : Int) : Vec3 Elem := Vec3.map (BitVec.ofInt 16) ⟨a, b, c⟩

/-- Right after reset, with the operand registers written. -/
def operands (opa : Int) (a b : Mat3 Elem) (v : Vec3 Elem) : State :=
  { State.reset with block := { Block.reset with opa := BitVec.ofInt 32 opa, matA := a, matB := b, vec := v } }

/-- The word `w` accepted in `s`, with the core to move. -/
def flying (s : State) (w : Word) : State := { s with block := s.block.accept w, turns := [.core] }

/-- The word `w` accepted right after reset, with the core to move. -/
def busy (w : Word) : State := flying State.reset w

/-- Idle, with the host about to do `op`. -/
def hosting (op : HostOp) : State := { State.reset with host := [op] }

/-- A command in flight, with the host about to do `op` first. -/
def hostingBusy (op : HostOp) : State := { busy 0x00000009 with turns := [.host], host := [op] }

/-- A completed command: DONE, OVR and IE are 1. -/
def raised (op : HostOp) : State :=
  { State.reset with host := [op], block := { Block.reset with done := true, ovr := true, ie := true } }

/-- Reset about to take effect on a command in flight. -/
def resetting : State := { busy 0x00000009 with turns := [.reset] }

/-- The block after one step, seen through `f`. -/
def after {α : Type} (f : Block → α) (s : State) : Option α :=
  match step s with
  | .next t => some (f t.block)
  | .fault _ => none
  | .refused _ => none

/-- The port after one step. -/
def portAfter (s : State) : Option PortOut :=
  match step s with
  | .next t => some t.port
  | .fault _ => none
  | .refused _ => none

/-- The matrix [6,24,1, 13,16,10, 20,17,15] of 95_test_vectors.md W1. -/
def keyW1 : Mat3 Elem := elems 6 24 1 13 16 10 20 17 15

/-- The matrix [−1,2,−3, 4,−5,6, −7,8,10] of 95_test_vectors.md section 2. -/
def signed9 : Mat3 Elem := elems (-1) 2 (-3) 4 (-5) 6 (-7) 8 10

/-- The zero matrix. -/
def zero9 : Mat3 Elem := Mat3.fill 0

/-- The zero vector. -/
def zero3 : Vec3 Elem := Vec3.fill 0

/-! ## Well-formedness: one term for each check, which the check refuses -/

theorem test_wf_pmod : (Instr.pmod 256).wellFormed = false := by decide
theorem test_wf_modinv : (Instr.modinv 256).wellFormed = false := by decide
theorem test_wf_detm : (Instr.detm 256).wellFormed = false := by decide
theorem test_wf_adjm : (Instr.adjm 256).wellFormed = false := by decide
theorem test_wf_redm : (Instr.redm 256).wellFormed = false := by decide
theorem test_wf_scalem : (Instr.scalem 256).wellFormed = false := by decide
theorem test_legal_refuses_zero : (Instr.pmod 0).legal = false ∧ (Instr.pmod 0).wellFormed = true := by decide

/-! ## Decoding: words written out from R46 and R48, RSV then M then OPCODE -/

theorem test_decode_pmod : decode 0b0000000000000000_00011010_00000001#32 = .ok (.pmod 26) := by decide
theorem test_decode_modinv : decode 0b0000000000000000_00001101_00000010#32 = .ok (.modinv 13) := by decide
theorem test_decode_detm : decode 0b0000000000000000_11111111_00000011#32 = .ok (.detm 255) := by decide
theorem test_decode_adjm : decode 0b0000000000000000_00000010_00000100#32 = .ok (.adjm 2) := by decide
theorem test_decode_redm : decode 0b0000000000000000_10000000_00000101#32 = .ok (.redm 128) := by decide
theorem test_decode_scalem : decode 0b0000000000000000_00000001_00000110#32 = .ok (.scalem 1) := by decide
theorem test_decode_crt : decode 0b0000000000000000_00000000_00000111#32 = .ok .crt := by decide
theorem test_decode_matvec : decode 0b0000000000000000_00000000_00001000#32 = .ok .matvec := by decide
theorem test_decode_inv26 : decode 0b0000000000000000_00000000_00001001#32 = .ok .inv26 := by decide

/-- The illegal words of 95_test_vectors.md section 2.8, each with its reason. -/
theorem test_decode_rejects :
    decode 0x00000000 = .error .reservedOpcode ∧ decode 0x0000000A = .error .reservedOpcode ∧
    decode 0x000000FF = .error .reservedOpcode ∧ decode 0x00001AFF = .error .reservedOpcode ∧
    decode 0x00010001 = .error .reservedFieldNotZero ∧ decode 0x80000D02 = .error .reservedFieldNotZero ∧
    decode 0x00000D07 = .error .modulusFieldNotZero ∧ decode 0x00000109 = .error .modulusFieldNotZero := by
  decide

/-- The rows of the opcode table, as the host numbers their bits; what lies above them is 0. -/
theorem test_table_words :
    decodeTableWord 32 0x00000001 = some (.pmod 0) ∧ decodeTableWord 32 0x00000009 = some .inv26 ∧
    decodeTableWord 8 0x07 = some .crt ∧ decodeTableWord 32 0x00010009 = none ∧
    decodeTableWord 64 0x100000007 = none := by decide

/-! ## Assembler lines and programs (R55, R56) -/

theorem test_assemble_pmod : assemble "PMOD 26".toList = some 0x00001A01 := by decide
theorem test_assemble_hex : assemble "DETM 0x1A".toList = some 0x00001A03 ∧
    assemble "DETM 0x1a".toList = some 0x00001A03 := by decide
theorem test_assemble_word : assemble ".word 0x00010001".toList = some 0x00010001 := by decide
theorem test_assemble_rejects :
    assemble "PMOD 0".toList = none ∧ assemble "PMOD 256".toList = none ∧ assemble "CRT 5".toList = none ∧
    assemble "PMOD".toList = none ∧ assemble ".word 0x1".toList = none := by decide
theorem test_expand_run : (HostLine.run (.modinv 13)).expand =
    [.write 0x00C 0x00000D02 0b1111, .waitNotBusy] := by decide
theorem test_expand_vec : (HostLine.ldv ⟨0xF, 0xE, 0x7⟩).expand =
    [.write 0x0C0 0xF 0b1111, .write 0x0C4 0xE 0b1111, .write 0x0C8 0x7 0b1111] := by decide

/-! ## The commands, on the vectors of 95_test_vectors.md section 2 -/

/-- Section 2.1: −2^31 mod 255 = 127. -/
theorem test_pmod_most_negative :
    after (fun b => (b.rc, b.resScalar)) (flying (operands (-2147483648) zero9 zero9 zero3) 0x0000FF01) =
      some (.ok, 127) := by decide

/-- Section 2.1: m = 0. -/
theorem test_pmod_zero_modulus :
    after (fun b => (b.rc, b.resScalar, b.lastOp)) (flying (operands 7 zero9 zero9 zero3) 0x00000001) =
      some (.illegalOperand, 0, 0x01) := by decide

/-- Section 2.2: the inverse of −3 mod 26 is 17. -/
theorem test_modinv_negative :
    after (fun b => (b.rc, b.resGcd, b.resScalar)) (flying (operands (-3) zero9 zero9 zero3) 0x00001A02) =
      some (.ok, 1, 17) := by decide

/-- Section 2.2: 0 has no inverse mod 26, and the gcd is 26. -/
theorem test_modinv_no_inverse :
    after (fun b => (b.rc, b.resGcd, b.resScalar)) (flying (operands 0 zero9 zero9 zero3) 0x00001A02) =
      some (.noInverse, 26, 0) := by decide

/-- Section 2.3: a negative determinant, −57. -/
theorem test_detm_negative :
    after (fun b => (b.rc, b.resDetHi, b.resDetLo, b.resScalar)) (flying (operands 0 signed9 zero9 zero3)
      0x00001A03) = some (.ok, 0xFFFFFFFF, 0xFFFFFFC7, 21) := by decide

/-- Section 2.3: a determinant of more than 32 bits, −3221127169. -/
theorem test_detm_wide :
    after (fun b => (b.resDetHi, b.resDetLo, b.resScalar)) (flying (operands 0
      (elems (-32768) 32767 0 0 (-32768) 32767 32767 0 (-32768)) zero9 zero3) 0x00000D03) =
      some (0xFFFFFFFF, 0x40017FFF, 0) := by decide

/-- Section 2.4: a transposed or unsigned cofactor would show. -/
theorem test_adjm_signed :
    after (fun b => (b.rc, b.matR)) (flying (operands 0 signed9 zero9 zero3) 0x00001A04) =
      some (.ok, ⟨6, 8, 23, 22, 21, 20, 23, 20, 23⟩) := by decide

/-- Section 2.4. -/
theorem test_redm_signed :
    after (fun b => (b.rc, b.matR)) (flying (operands 0 signed9 zero9 zero3) 0x00001A05) =
      some (.ok, ⟨25, 2, 23, 4, 21, 6, 19, 8, 10⟩) := by decide

/-- Section 2.4: the product is exact before it is reduced. -/
theorem test_scalem_wide :
    after (fun b => (b.rc, b.matR)) (flying (operands 2147483647 signed9 zero9 zero3) 0x0000FF06) =
      some (.ok, ⟨128, 254, 129, 253, 130, 252, 131, 251, 250⟩) := by decide

/-- Section 2.5: operands out of range are reduced first. -/
theorem test_crt_unreduced :
    after (fun b => (b.rc, b.matR)) (flying (operands 0 (elems (-1) (-2) 3 0 1 (-32768) 32767 5 7)
      (elems (-1) (-13) 26 12 (-12) (-32768) 32767 100 0) zero3) 0x00000007) =
      some (.ok, ⟨25, 0, 13, 12, 1, 18, 7, 9, 13⟩) := by decide

/-- Section 2.6: a row vector would give another product. -/
theorem test_matvec_signed :
    after (fun b => (b.rc, b.vecR)) (flying (operands 0 signed9 zero9 (comps (-1) 0 25)) 0x00000008) =
      some (.ok, ⟨4, 16, 23⟩) := by decide

/-- Section 2.7, W1. -/
theorem test_inv26_known_key :
    after (fun b => (b.rc, b.matR)) (flying (operands 0 keyW1 zero9 zero3) 0x00000009) =
      some (.ok, ⟨8, 5, 10, 21, 8, 21, 21, 12, 8⟩) := by decide

/-- Section 2.7: d = 13. -/
theorem test_inv26_mod13 :
    after (fun b => (b.rc, b.matR)) (flying (operands 0 (elems 13 0 0 0 1 0 0 0 1) zero9 zero3) 0x00000009) =
      some (.noninvMod13, Mat3.fill 0) := by decide

/-- Section 2.5: CRT with M = 1 is illegal. -/
theorem test_crt_with_modulus :
    after (fun b => (b.rc, b.matR)) (busy 0x00000107) = some (.illegalCommand, Mat3.fill 0) := by decide

/-! ## The port, on the rows of 95_test_vectors.md section 2.9 -/

theorem test_read_id : portAfter (hosting (.read 0x000)) = some (.readDone 0x48433301 false) := by decide
theorem test_read_misaligned : portAfter (hosting (.read 0x00A)) = some (.readDone 0 true) := by decide
theorem test_read_reserved : portAfter (hosting (.read 0x014)) = some (.readDone 0 false) := by decide
theorem test_write_strobes :
    after (fun b => b.matA) (hosting (.write 0x040 0x1234 0b0011)) = some (Mat3.fill 0) ∧
    portAfter (hosting (.write 0x040 0x1234 0b0011)) = some (.writeDone true) := by decide
theorem test_write_element :
    after (fun b => (b.matA.m0, b.readReg (.matA 0))) (hosting (.write 0x040 0x00018000 0b1111)) =
      some (0x8000, 0xFFFF8000) := by decide
theorem test_write_ctrl :
    after (fun b => b.readReg .ctrl) (hosting (.write 0x004 0xFFFFFFFF 0b1111)) = some 1 := by decide
theorem test_write_busy_cmd :
    after (fun b => (b.ovr, b.lastOp, b.cmd, b.latch.cmd)) (hostingBusy (.write 0x00C 0x00001A05 0b1111)) =
      some (true, 0x09, 0x00000009, 0x00000009) := by decide
theorem test_clear_done :
    after (fun b => (b.done, b.ovr, b.irq)) (raised (.write 0x008 0x00000002 0b1111)) =
      some (false, true, false) := by decide
theorem test_clear_overrun :
    after (fun b => (b.done, b.ovr, b.irq)) (raised (.write 0x008 0x00000004 0b1111)) =
      some (true, false, true) := by decide
theorem test_reset_abandons :
    after (fun b => (b.latch.valid, b.done, b.readReg .status)) resetting = some (false, false, 0) := by decide

/-- The status word of P5: RC = 6, DONE = 1, LAST_OP = 0x01. -/
theorem test_status_word : after (fun b => b.statusWord) (busy 0x00000001) = some 0x00000162 := by decide

/-- A command placed by `withFetchWord` is what the next step completes. -/
theorem test_with_fetch_word :
    after (fun b => (b.rc, b.latch.valid, b.cmd)) (State.reset.withFetchWord 32 0x00000008) =
      some (.ok, false, 0x00000008) := by decide

/-! ## Witnesses: what meets the hypotheses of each obligation -/

/-- Whatever the word in flight, `busy` is a state about to complete it. -/
theorem busy_completes (w : Word) : CompletesNext (busy w) ∧ (busy w).block.latch.cmd = w := ⟨⟨rfl, rfl⟩, rfl⟩

/-- The three fields of a word, as the statements cut them. -/
def fieldsOf (w : Word) : Nat × Nat × Nat :=
  ((w.extractLsb' 0 8).toNat, (w.extractLsb' 8 8).toNat, (w.extractLsb' 16 16).toNat)

/-- A word of every opcode with RSV not 0, at its least and its top bit: with `busy_completes`, each meets the
hypotheses of `ReservedBitsRefused`. -/
theorem witness_ReservedBitsRefused :
    [0x00010001, 0x00010002, 0x00010003, 0x00010004, 0x00010005, 0x80000006, 0x80000007, 0x80000008,
      0x80000009].map fieldsOf =
    [(1, 0, 1), (2, 0, 1), (3, 0, 1), (4, 0, 1), (5, 0, 1), (6, 0, 32768), (7, 0, 32768), (8, 0, 32768),
      (9, 0, 32768)] := by decide

/-- M at 1 and at 255, on the three commands without a modulus: the hypotheses of `ModulusBitsRefused`. -/
theorem witness_ModulusBitsRefused :
    [0x00000107, 0x0000FF07, 0x00000108, 0x0000FF08, 0x00000109, 0x0000FF09].map fieldsOf =
    [(7, 1, 0), (7, 255, 0), (8, 1, 0), (8, 255, 0), (9, 1, 0), (9, 255, 0)] := by decide

theorem witness_DecodeOfEncodeIsIdentity : (Instr.pmod 255).wellFormed = true ∧ (Instr.scalem 0).wellFormed = true ∧
    Instr.inv26.wellFormed = true := by decide

theorem witness_EncodeOfDecodeIsIdentity : decode 0x0000FF06#32 = .ok (.scalem 255) ∧
    decode 0x00000001#32 = .ok (.pmod 0) := by decide

theorem witness_EncodedWordIsOpcodeOrShiftedModulus : 0 < 256 ∧ 255 < 256 := by decide

theorem witness_DecodeAgreesWithOpcodeTable : decode 0x00000008#32 = .ok .matvec ∧
    (⟨"MATVEC", 0x00000008, 0xFFFFFFFF⟩ : OpcodeRow) ∈ opcodeTable := by decide

/-- A line of each kind: a modulus of 255 in decimal, in hexadecimal of either case, a command without operand, and a
`.word` line. -/
theorem witness_AssemblerSpellsLegalCommands :
    IsLiteral ['2', '5', '5'] 255 ∧ IsLiteral ['0', 'x', 'F', 'f'] 255 ∧
    ((Instr.pmod 255).legal = true ∧ IsCommandLine (.pmod 255) ['P', 'M', 'O', 'D', ' ', '2', '5', '5']) ∧
    IsCommandLine .crt ['C', 'R', 'T'] ∧
    IsWordLine 0x0001001A ['.', 'w', 'o', 'r', 'd', ' ', '0', 'x', '0', '0', '0', '1', '0', '0', '1', 'A'] := by
  have d255 : IsLiteral ['2', '5', '5'] 255 := .inl ⟨by decide, [2, 5, 5], by decide, by decide⟩
  exact ⟨d255, .inr ⟨_, rfl, by decide, [15, 15], by decide, by decide⟩, ⟨by decide, _, d255, by decide⟩,
    (by decide : ['C', 'R', 'T'] = Instr.crt.mnemonic.toList),
    ⟨_, rfl, ⟨by decide, [0, 0, 0, 1, 0, 0, 1, 10], by decide, by decide⟩, rfl⟩⟩

/-- The two ends of the modulus, as the statements of the six commands write them. -/
theorem witness_AssembledFrom : (1 ≤ 1 ∧ 255 < 256) ∧ Nat.toDigits 10 255 = ['2', '5', '5'] ∧
    Nat.toDigits 16 255 = ['f', 'f'] ∧ (Nat.toDigits 16 255).map Char.toUpper = ['F', 'F'] := by decide

theorem witness_StepRunsDecodedCommand : CompletesNext (busy 0x00001A01#32) ∧
    decode (busy 0x00001A01#32).block.latch.cmd = .ok (.pmod 26) := by decide

theorem witness_IdleCommandWriteIsAccepted :
    HostNext (hosting (.write 0x00C 0xFFFFFFFF 0b1111)) (.write 0x00C#9 0xFFFFFFFF#32 0b1111#4) [] ∧
    (hosting (.write 0x00C 0xFFFFFFFF 0b1111)).block.latch.valid = false := by decide

theorem witness_BusyCommandWriteSetsOverrunOnly :
    HostNext (hostingBusy (.write 0x00C 7 0b1111)) (.write 0x00C#9 7#32 0b1111#4) [] ∧
    (hostingBusy (.write 0x00C 7 0b1111)).block.latch.valid = true := by decide

/-- The opcodes at the ends of the two reserved ranges; the other clauses by the two witnesses above. -/
theorem witness_IllegalWordsCompleteWithIllegalCommand :
    (CompletesNext (busy 0x00001A00#32) ∧ (busy 0x00001A00#32).block.latch.cmd.extractLsb' 0 8 = 0x00#8) ∧
    (CompletesNext (busy 0x0000000A#32) ∧ 0x0A ≤ ((busy 0x0000000A#32).block.latch.cmd.extractLsb' 0 8).toNat) ∧
    (CompletesNext (busy 0x000000FF#32) ∧ 0x0A ≤ ((busy 0x000000FF#32).block.latch.cmd.extractLsb' 0 8).toNat) := by
  decide

theorem witness_ModulusZeroIsIllegalOperand : (Instr.redm 0).modulus? = some 0 ∧
    (Instr.modinv 1).modulus? = some 1 := by decide

/-- Every word is in flight in a state about to complete it, so each of the ways the checks of R53 can end is met:
here the word whose three checks all fail, and one that passes them. -/
theorem witness_DecodeChecksRunInOrder : CompletesNext (busy 0x0001010A#32) ∧ CompletesNext (busy 0x00000D02#32) :=
  ⟨(busy_completes _).1, (busy_completes _).1⟩

/-- The moduli at the ends of 1..255, for the six commands that take one. -/
theorem witness_moduli : (1 ≤ 1 ∧ 1 < 256) ∧ (1 ≤ 255 ∧ 255 < 256) ∧ 0 < 256 := by decide

/-- The hypotheses of PMOD's statement, met: OPA at its least value. -/
theorem witness_PmodWritesResidue : (1 ≤ 255 ∧ 255 < 256) ∧
    (flying (operands (-2147483648) zero9 zero9 zero3) 0x0000FF01).block.latch.opa = 0x80000000#32 := by decide

/-- An operand with an inverse, and one without. -/
theorem witness_ModinvWritesGcdAndInverse :
    Int.gcd (flying (operands (-3) zero9 zero9 zero3) 0x00001A02).block.latch.opa.toInt 26 = 1 ∧
    Int.gcd (flying (operands 0 zero9 zero9 zero3) 0x00001A02).block.latch.opa.toInt 26 ≠ 1 := by decide

/-- The operands on which DETM, ADJM, REDM and SCALEM are stated, at the ends of the element's range. -/
theorem witness_DetmWritesDeterminantAndResidue : (1 ≤ 1 ∧ 1 < 256) ∧
    (flying (operands 0 (elems (-32768) 32767 0 0 (-32768) 32767 32767 0 (-32768)) zero9 zero3)
      0x00000103).block.latch.matA.toInts = ⟨-32768, 32767, 0, 0, -32768, 32767, 32767, 0, -32768⟩ := by decide

theorem witness_AdjmWritesReducedAdjugate : (1 ≤ 255 ∧ 255 < 256) ∧
    (flying (operands 0 signed9 zero9 zero3) 0x0000FF04).block.latch.matA = signed9 := by decide

theorem witness_RedmWritesReducedMatrix : (1 ≤ 1 ∧ 1 < 256) ∧
    (flying (operands 0 signed9 zero9 zero3) 0x00000105).block.latch.matA = signed9 := by decide

theorem witness_ScalemWritesScaledMatrix : (1 ≤ 255 ∧ 255 < 256) ∧
    (flying (operands 2147483647 signed9 zero9 zero3) 0x0000FF06).block.latch.opa.toInt = 2147483647 := by decide

/-- CRT and MATVEC are stated on every state; their refusals by the two witnesses of refused bits. -/
theorem witness_CrtWritesRecombinedMatrix : CompletesNext (busy 0x00000107#32) ∧
    (busy 0x00000107#32).block.latch.cmd.extractLsb' 8 8 ≠ 0 := by decide

theorem witness_MatvecWritesProduct : CompletesNext (busy 0x00001A08#32) ∧
    (busy 0x00001A08#32).block.latch.cmd.extractLsb' 8 8 ≠ 0 := by decide

/-- A key of each of the three kinds. -/
theorem witness_Inv26WritesInverseOrCode :
    (Int.gcd (matrixOf keyW1).det 26 = 1) ∧ (2 : Int) ∣ (matrixOf zero9).det ∧
    (¬ (2 : Int) ∣ (matrixOf (elems 13 0 0 0 1 0 0 0 1)).det ∧
      (13 : Int) ∣ (matrixOf (elems 13 0 0 0 1 0 0 0 1)).det) := by
  rw [Matrix.det_fin_three, Matrix.det_fin_three, Matrix.det_fin_three]
  decide

/-- A unit with its inverse, a non-unit, and the modulus 1; a rival inverse in range. -/
theorem witness_ModularInverseExistsExactlyForUnits : 1 ≤ 26 ∧ 1 ≤ 1 ∧ modularInverse (-3) 26 = some 17 ∧
    modularInverse 7 1 = some 0 ∧ modularInverse 13 26 = none ∧ 17 < 26 ∧ (26 : Int) ∣ -3 * 17 - 1 := by decide

/-- The residues at the ends of their ranges, and the value for each pair. -/
theorem witness_CrtValueIsUnique :
    ((0 : Int) ≤ 0 ∧ (0 : Int) < 2 ∧ (0 : Int) < 13 ∧ (0 : Int) < 26) ∧
    ((0 : Int) ≤ 1 ∧ (1 : Int) < 2 ∧ (12 : Int) < 13 ∧ (25 : Int) < 26 ∧ (25 : Int) % 2 = 1 ∧ (25 : Int) % 13 = 12) := by
  decide

theorem witness_InverterReportsModulusTwoFirst :
    determinant ⟨0, 0, 0, 0, 0, 0, 0, 0, 1⟩ % 2 = 0 ∧
    (determinant ⟨13, 0, 0, 0, 1, 0, 0, 0, 1⟩ % 2 ≠ 0 ∧ determinant ⟨13, 0, 0, 0, 1, 0, 0, 0, 1⟩ % 13 = 0) := by
  decide

/-- 95_test_vectors.md W1: an inverse, which is also the rival R' of the last clause. -/
theorem witness_InverterReturnsTheUniqueInverse :
    invert26 keyW1.toInts = .ok ⟨8, 5, 10, 21, 8, 21, 21, 12, 8⟩ ∧
    (∀ r c : Fin 3, 0 ≤ (⟨8, 5, 10, 21, 8, 21, 21, 12, 8⟩ : Mat3 Int).entry r c ∧
      (⟨8, 5, 10, 21, 8, 21, 21, 12, 8⟩ : Mat3 Int).entry r c < 26) ∧
    Int.gcd (determinant keyW1.toInts) 26 = 1 := ⟨by rfl, by decide, by decide⟩

/-- 95_test_vectors.md W1: `ACT` is encrypted to `POH` and decrypted again. -/
theorem witness_DecryptionUndoesEncryption :
    ∃ s' e' d' : State,
      exec .inv26 (flying (operands 0 keyW1 zero9 zero3) 9) = .next s' ∧ s'.block.rc = .ok ∧
      (∀ r, 0 ≤ ((flying (operands 0 keyW1 zero9 (comps 0 2 19)) 8).block.latch.vec.get r).toInt ∧
        ((flying (operands 0 keyW1 zero9 (comps 0 2 19)) 8).block.latch.vec.get r).toInt < 26) ∧
      exec .matvec (flying (operands 0 keyW1 zero9 (comps 0 2 19)) 8) = .next e' ∧
      s'.block.matR.map (fun x => storeElem (loadResElem x)) = elems 8 5 10 21 8 21 21 12 8 ∧
      e'.block.vecR.map (fun x => storeElem (loadResElem x)) = comps 15 14 7 ∧
      exec .matvec (flying (operands 0 (elems 8 5 10 21 8 21 21 12 8) zero9 (comps 15 14 7)) 8) = .next d' :=
  ⟨_, _, _, rfl, by decide, by decide, rfl, by decide, by decide, rfl⟩

/-- A failure with no result, a failure with a gcd, and a success. -/
theorem witness_CompletionWritesOnlyItsResults :
    (∃ t, exec (.pmod 0) (busy 0x00000001) = .next t ∧ t.block.rc ≠ .ok ∧ t.block.rc ≠ .noInverse) ∧
    (∃ t, exec (.modinv 26) (busy 0x00001A02) = .next t ∧ t.block.rc = .noInverse) ∧
    "CRT" ∉ ["PMOD", "MODINV", "DETM"] ∧ "PMOD" ≠ "MODINV" ∧ "PMOD" ≠ "DETM" ∧ "PMOD" ≠ "MATVEC" ∧
    "PMOD" ∉ ["ADJM", "REDM", "SCALEM", "CRT", "INV26"] :=
  ⟨⟨_, rfl, by decide⟩, ⟨_, rfl, by decide⟩, by decide⟩

/-- The opcodes at the ends of every range of the statement, in flight in states about to complete them, and a
completion of one of each outcome. -/
theorem witness_ResultCodesByCommand :
    [0x00, 0x01, 0x02, 0x03, 0x06, 0x07, 0x08, 0x09, 0x0A, 0xFF].map (fun w => (fieldsOf w).1) =
      [0, 1, 2, 3, 6, 7, 8, 9, 10, 255] ∧
    CompletesNext (busy 0x00000009) ∧ (∃ t, step (busy 0x00000009) = .next t) ∧
    CompletesNext (busy 0x000000FF) ∧ ∃ t, step (busy 0x000000FF) = .next t :=
  ⟨by decide, (busy_completes _).1, ⟨_, rfl⟩, (busy_completes _).1, ⟨_, rfl⟩⟩

/-- Two machines with the same L and results that differ in OPA, IE and what the host does next. -/
theorem witness_ResultsDependOnLatchAlone :
    (busy 0x00001A01).block.latch =
      ({ busy 0x00001A01 with block := { (busy 0x00001A01).block with opa := 5, ie := true } } : State).block.latch ∧
    ∃ s' u', exec (.pmod 26) (busy 0x00001A01) = .next s' ∧
      exec (.pmod 26) { busy 0x00001A01 with block := { (busy 0x00001A01).block with opa := 5, ie := true } } =
        .next u' :=
  ⟨by decide, _, _, rfl, rfl⟩

/-- Misaligned accesses at both ends of the window, and a sub-word write. -/
theorem witness_BusErrorsChangeNothing :
    (∀ a ∈ [0x001#9, 0x00A#9, 0x1FF#9], HostNext (hosting (.read a)) (.read a) [] ∧ a.extractLsb' 0 2 ≠ 0#2 ∧
      HostNext (hosting (.write a 1 0b1111)) (.write a 1#32 0b1111#4) []) ∧
    (HostNext (hosting (.write 0x040 1 0b0011)) (.write 0x040#9 1#32 0b0011#4) [] ∧ (0b0011#4 : Strobes) ≠ 0b1111#4) := by
  decide

/-- Both ends of every reserved range of R38. -/
theorem witness_ReservedAddressesReadZero : ∀ a ∈ [0x014#9, 0x03C#9, 0x064#9, 0x07C#9, 0x0A4#9, 0x0BC#9, 0x0CC#9,
    0x0FC#9, 0x110#9, 0x13C#9, 0x164#9, 0x17C#9, 0x18C#9, 0x1FC#9],
    a.toNat % 4 = 0 ∧ Reg.ofAddr a = none ∧ HostNext (hosting (.read a)) (.read a) [] ∧
      HostNext (hosting (.write a 5 0b1111)) (.write a 5#32 0b1111#4) [] := by decide

/-- A read, the two waits, and a write with an effect at the first and last address of each writable range. -/
theorem witness_OnlyListedWritesHaveEffects :
    HostNext (hosting (.read 0x1FF)) (.read 0x1FF#9) [] ∧ HostNext (hosting .waitNotBusy) .waitNotBusy [] ∧
    HostNext (hosting .waitIrq) .waitIrq [] ∧
    (∀ a ∈ [0x004#9, 0x00C#9, 0x010#9, 0x040#9, 0x060#9, 0x080#9, 0x0A0#9, 0x0C0#9, 0x0C8#9],
      HostNext (hosting (.write a 1 0b1111)) (.write a 1#32 0b1111#4) [] ∧
      after (fun b => decide (b = Block.reset)) (hosting (.write a 1 0b1111)) = some false) ∧
    after (fun b => b.done) (raised (.write 0x008 2 0b1111)) = some false := by decide

theorem witness_IdReadsItsConstant : HostNext (hosting (.read 0x000)) (.read 0x000#9) [] ∧
    HostNext (hosting (.write 0x000 1 0b1111)) (.write 0x000#9 1#32 0b1111#4) [] := by decide

theorem witness_CtrlStoresInterruptEnable : HostNext (hosting (.read 0x004)) (.read 0x004#9) [] ∧
    HostNext (hosting (.write 0x004 1 0b1111)) (.write 0x004#9 1#32 0b1111#4) [] := by decide

theorem witness_StatusLayoutAndWriteOneToClear : HostNext (raised (.read 0x008)) (.read 0x008#9) [] ∧
    HostNext (raised (.write 0x008 6 0b1111)) (.write 0x008#9 6#32 0b1111#4) [] := by decide

/-- A reset, a completion and an acceptance, each of which changes BUSY. -/
theorem witness_StatusFieldsFollowTheLifecycle :
    (nextTurn resetting = .reset ∧ resetting.block.latch.valid = true ∧
      after (fun b => b.latch.valid) resetting = some false) ∧
    (CompletesNext (busy 8) ∧ after (fun b => b.latch.valid) (busy 8) = some false) ∧
    after (fun b => b.latch.valid) (hosting (.write 0x00C 8 0b1111)) = some true := by decide

theorem witness_CmdReadsBackTheLastAcceptedWord : HostNext (hosting (.read 0x00C)) (.read 0x00C#9) [] ∧
    HostNext (hosting (.write 0x00C 8 0b1111)) (.write 0x00C#9 8#32 0b1111#4) [] ∧
    HostNext (hostingBusy (.write 0x00C 8 0b1111)) (.write 0x00C#9 8#32 0b1111#4) [] := by decide

/-- The first and last register of each operand array, idle and busy; another register and another byte. -/
theorem witness_OperandWritesStoreAndReadBack :
    (∀ r ∈ [Reg.opa, .matA 0, .matA 8, .matB 0, .matB 8, .vec 0, .vec 2], r.isOperand = true ∧
      HostNext (hosting (.write r.addr 1 0b1111)) (.write r.addr 1#32 0b1111#4) [] ∧
      HostNext (hostingBusy (.write r.addr 1 0b1111)) (.write r.addr 1#32 0b1111#4) [] ∧ Reg.resGcd ≠ r ∧
      (0x1FF#9 : Addr).toNat / 4 ≠ r.offset / 4) := by decide

/-- The first and last result register of each kind. -/
theorem witness_ResultRegistersReadAndIgnoreWrites :
    ∀ a ∈ [0x100#9, 0x104#9, 0x108#9, 0x10C#9, 0x140#9, 0x160#9, 0x180#9, 0x188#9],
      (hosting (.read a)).block.latch.valid = false ∧ HostNext (hosting (.read a)) (.read a) [] ∧
      HostNext (hosting (.write a 1 0b1111)) (.write a 1#32 0b1111#4) [] := by decide

theorem witness_result_addresses : (0x160#9 : Addr) = BitVec.ofNat 9 (0x140 + 4 * (8 : Fin 9).val) ∧
    (0x188#9 : Addr) = BitVec.ofNat 9 (0x180 + 4 * (2 : Fin 3).val) := by decide

theorem witness_BusyResultReadsAreFree :
    (∀ r ∈ [Reg.resScalar, .resGcd, .resDetLo, .resDetHi, .matR 0, .matR 8, .vecR 0, .vecR 2],
      r.isResult = true ∧ (hostingBusy (.read r.addr)).block.latch.valid = true ∧
      HostNext (hostingBusy (.read r.addr)) (.read r.addr) []) := by decide

/-- A completion, and a CTRL write that raises `irq` while DONE = 1. -/
theorem witness_InterruptSignalsCompletion : CompletesNext (busy 8) ∧ (busy 8).block.irq = false ∧
    (let s : State := { hosting (.write 0x004 1 0b1111) with block := { Block.reset with done := true } }
     s.block.irq = false ∧ after (fun b => b.irq) s = some true ∧
       HostNext s (.write 0x004#9 1#32 0b1111#4) []) := by decide

/-- Each way DONE is set and cleared. -/
theorem witness_DoneIsSetByCompletionAlone :
    (CompletesNext (busy 8) ∧ (busy 8).block.done = false ∧ after (fun b => b.done) (busy 8) = some true) ∧
    nextTurn resetting = .reset ∧
    (HostNext (raised (.write 0x008 2 0b1111)) (.write 0x008#9 2#32 0b1111#4) [] ∧ (2#32).getLsbD 1 = true ∧
      after (fun b => b.done) (raised (.write 0x008 2 0b1111)) = some false) ∧
    (HostNext (raised (.write 0x00C 8 0b1111)) (.write 0x00C#9 8#32 0b1111#4) [] ∧
      after (fun b => b.done) (raised (.write 0x00C 8 0b1111)) = some false) ∧
    (let s : State := { hostingBusy (.write 0x008 2 0b1111) with turns := [.host, .core] }
     s.turns = [.host, .core] ∧ s.host = [.write 0x008#9 2#32 0b1111#4] ∧ s.block.latch.valid = true) := by decide

/-- OVR set, and cleared both ways. -/
theorem witness_OverrunIsSticky :
    ((hostingBusy (.write 0x00C 8 0b1111)).block.ovr = false ∧
      after (fun b => b.ovr) (hostingBusy (.write 0x00C 8 0b1111)) = some true) ∧
    ((raised (.write 0x008 4 0b1111)).block.ovr = true ∧
      after (fun b => b.ovr) (raised (.write 0x008 4 0b1111)) = some false) ∧
    (let s : State := { raised .waitIrq with turns := [.reset] }
     s.block.ovr = true ∧ nextTurn s = .reset ∧ after (fun b => b.ovr) s = some false) := by decide

theorem witness_ResetRestoresEveryRegister : nextTurn resetting = .reset ∧ Reg.cmd ≠ .id := by decide

/-- An accepted command with host turns settled before its completion. -/
theorem witness_AcceptedCommandCompletes :
    (busy 9).block.latch.valid = true ∧ Turn.reset ∉ [Turn.host, .host] ∧ Turn.reset ∉ ([] : List Turn) := by decide

/-- A host access while idle, and an acceptance, which changes RC. -/
theorem witness_ResultsAreStableBetweenCompletions :
    ¬ CompletesNext (hosting (.read 0x100)) ∧ nextTurn (hosting (.read 0x100)) ≠ .reset ∧
    (let s : State := { hosting (.write 0x00C 8 0b1111) with block := { Block.reset with rc := .noninvMod2 } }
     ¬ CompletesNext s ∧ nextTurn s ≠ .reset ∧ after (fun b => b.rc) s = some .ok) := by decide

theorem witness_LatchIsStableWhileBusy :
    (hostingBusy (.write 0x040 7 0b1111)).block.latch.valid = true ∧
    nextTurn (hostingBusy (.write 0x040 7 0b1111)) ≠ .core ∧
    nextTurn (hostingBusy (.write 0x040 7 0b1111)) ≠ .reset := by decide

/-- The host's turn with no access, with a read and a write (the last address, misaligned; the first), with each
wait on both of its sides; another agent's turn; and a run. -/
theorem witness_HostAccessesKeepTheirOrder :
    (nextTurn State.reset = .host ∧ State.reset.host = []) ∧
    HostNext (hosting (.read 0x1FF)) (.read 0x1FF#9) [] ∧
    HostNext (hosting (.write 0x000 1 0b1111)) (.write 0x000#9 1#32 0b1111#4) [] ∧
    (HostNext (hosting .waitNotBusy) .waitNotBusy [] ∧ (hosting .waitNotBusy).block.latch.valid = false) ∧
    (HostNext (hostingBusy .waitNotBusy) .waitNotBusy [] ∧ (hostingBusy .waitNotBusy).block.latch.valid = true) ∧
    (HostNext (hosting .waitIrq) .waitIrq [] ∧ (hosting .waitIrq).block.irq = false) ∧
    (HostNext (raised .waitIrq) .waitIrq [] ∧ (raised .waitIrq).block.irq = true) ∧
    ((∃ t, step (busy 8) = .next t) ∧ nextTurn (busy 8) ≠ .host) ∧
    ∃ t, Host.Core.run Sys2Proof.core 2 (hosting (.read 0x000)) = .next t :=
  ⟨by decide, by decide, by decide, by decide, by decide, by decide, by decide, ⟨⟨_, rfl⟩, by decide⟩, ⟨_, rfl⟩⟩

/-- `RUN DETM 26` with two polls settled before the completion, and with nothing settled. -/
theorem witness_RunPseudoInstructionCompletes : (Instr.detm 26).wellFormed = true ∧
    Turn.reset ∉ [Turn.host, .host, .host, .core] ∧ Turn.reset ∉ ([] : List Turn) ∧
    (let s : State := { State.reset with host := (HostLine.run (.detm 26)).expand ++ [.read 0x108] }
     s.block.latch.valid = false ∧ s.host = (HostLine.run (.detm 26)).expand ++ [.read 0x108#9]) := by decide

/-- A disciplined access busy and one idle; an undisciplined one of each kind is told apart. -/
theorem witness_DisciplinedHostMeetsNoHazard : disciplined (hosting (.read 0x100)) = true ∧
    disciplined (hostingBusy (.read 0x008)) = true ∧ disciplined (hostingBusy (.read 0x100)) = false ∧
    disciplined (hostingBusy (.write 0x00C 8 0b1111)) = false ∧ disciplined (hosting (.read 0x00A)) = false := by
  decide

/-- A state with the invariant, about to complete a command. -/
theorem witness_EveryStepKeepsTheInvariant : BlockInv (busy 0x00000009).block ∧ CompletesNext (busy 0x00000009) :=
  ⟨⟨by decide, by decide, by decide, by decide, by decide, by decide, by decide, by decide, by decide⟩, by decide⟩

end Sys2Proof.Tests
end

section
/-! Proofs about the state: the hardwired ID, CTRL and what reset leaves in every register (10_state.md R12, R13,
R30; 70_reset_and_hazards.md R101). -/

namespace Sys2Proof.Machine

open Sys2Proof.Safety

/-! ## Reads whose value is specified -/

/-- A read of a register that R104 does not leave open returns what the register holds: no result register, or no
command in flight (R34). -/
theorem step_of_host_read_specified {s : State} {r : Reg} {ops : List HostOp}
    (h : HostNext s (.read r.addr) ops) (hr : r.isResult = false ∨ s.block.latch.valid = false) :
    step s = .next { s with
      host := ops
      turns := s.turns.tail
      port := .readDone (s.block.readReg r) false } := by
  have hopen : ¬ (r.isResult = true ∧ s.block.latch.valid = true) := by
    rcases hr with hr | hr <;> simp [hr]
  rw [step_of_host_read h, State.memRead_reg, if_neg hopen]

theorem Block.ctrlWord_eq (b : Block) : b.ctrlWord = if b.ie then 1#32 else 0#32 := by
  unfold Block.ctrlWord
  cases b.ie <;> rfl

/-! ## The registers after reset -/

@[simp] theorem loadElem_zero : loadElem 0#16 = 0#32 := rfl
@[simp] theorem loadResElem_zero : loadResElem 0#8 = 0#32 := rfl

/-- Every register but ID reads 0 after reset (R30); the arrays do because each of their elements is 0. -/
theorem Block.readReg_reset {r : Reg} (h : r ≠ .id) : Block.reset.readReg r = 0#32 := by
  cases r with
  | id => exact absurd rfl h
  | matA i | matB i | matR i => simp [Block.readReg, Block.reset, Mat3.get_fill]
  | vec i | vecR i => simp [Block.readReg, Block.reset, Vec3.get_fill]
  | ctrl | status | cmd | opa | resScalar | resGcd | resDetLo | resDetHi => rfl

/-! ## The obligations -/

/-- Settles O36: ID is no result register, so even a busy read is specified, and its write rule is to ignore. -/
theorem idReadsItsConstant : Obligations.IdReadsItsConstant := by
  intro s ops
  constructor
  · intro h
    exact step_of_host_read_specified (r := .id) h (.inl rfl)
  · intro v h
    exact step_of_host_write (r := .id) h

/-- Settles O37, from the read and write rules of CTRL. -/
theorem ctrlStoresInterruptEnable : Obligations.CtrlStoresInterruptEnable := by
  refine ⟨fun s ops => ⟨fun v h => ?_, fun h => ?_⟩, rfl, fun b => rfl⟩
  · exact step_of_host_write (r := .ctrl) h
  · rw [← Block.ctrlWord_eq]
    exact step_of_host_read_specified (r := .ctrl) h (.inl rfl)

/-- Settles O48: a reset turn, like the state after reset, leaves `Block.reset`, whose registers are known. -/
theorem resetRestoresEveryRegister : Obligations.ResetRestoresEveryRegister := by
  refine ⟨fun s h => ?_, rfl, rfl, rfl, fun r => Block.readReg_reset⟩
  exact ⟨_, step_of_reset h, rfl, rfl, rfl, rfl, rfl, fun r => Block.readReg_reset⟩

end Sys2Proof.Machine
end

section
/-! Proofs about the port at the addresses no register answers: bus errors and the reserved addresses
(20_memory.md R34-R36, R38). -/

namespace Sys2Proof.Machine

open Sys2Proof.Safety

/-! ## Alignment -/

theorem aligned_eq_false_iff {a : Addr} : aligned a = false ↔ a.extractLsb' 0 2 ≠ 0#2 := by
  simp [aligned]

theorem aligned_iff_toNat_mod {a : Addr} : aligned a = true ↔ a.toNat % 4 = 0 := by
  simp [aligned, BitVec.toNat_eq]

/-! ## The register map, by offset -/

/-- The offsets of R11 fit the 9-bit address. -/
theorem Reg.offset_lt (r : Reg) : r.offset < 512 := by
  cases r with
  | matA i | matB i | vec i | matR i | vecR i => simp only [Reg.offset]; omega
  | _ => decide

@[simp] theorem Reg.toNat_addr (r : Reg) : r.addr.toNat = r.offset :=
  Nat.mod_eq_of_lt r.offset_lt

theorem Reg.ofAddr_eq_some_iff {a : Addr} {r : Reg} : Reg.ofAddr a = some r ↔ a.toNat = r.offset := by
  constructor
  · intro h
    rw [← Reg.addr_of_ofAddr h, Reg.toNat_addr]
  · intro h
    have ha : a = r.addr := BitVec.eq_of_toNat_eq (h.trans r.toNat_addr.symm)
    rw [ha, Reg.ofAddr_addr]

theorem Reg.ofAddr_eq_none_iff {a : Addr} : Reg.ofAddr a = none ↔ ¬ ∃ r : Reg, a.toNat = r.offset := by
  simp only [Option.eq_none_iff_forall_ne_some, ne_eq, Reg.ofAddr_eq_some_iff, not_exists]

/-- The offsets that R11 gives to registers: ID, CTRL, STATUS, CMD and OPA, the three operand arrays, the four
scalar results, the two result arrays. -/
theorem Reg.exists_offset_iff {n : Nat} : (∃ r : Reg, n = r.offset) ↔
    n % 4 = 0 ∧ (n ≤ 0x010 ∨ (0x040 ≤ n ∧ n ≤ 0x060) ∨ (0x080 ≤ n ∧ n ≤ 0x0A0) ∨ (0x0C0 ≤ n ∧ n ≤ 0x0C8) ∨
      (0x100 ≤ n ∧ n ≤ 0x10C) ∨ (0x140 ≤ n ∧ n ≤ 0x160) ∨ (0x180 ≤ n ∧ n ≤ 0x188)) := by
  constructor
  · rintro ⟨r, rfl⟩
    cases r with
    | matA i | matB i | vec i | matR i | vecR i => simp only [Reg.offset]; omega
    | _ => decide
  · rintro ⟨h4, h | h | h | h | h | h | h⟩
    · obtain h | h | h | h | h : n = 0x000 ∨ n = 0x004 ∨ n = 0x008 ∨ n = 0x00C ∨ n = 0x010 := by omega
      exacts [⟨.id, h⟩, ⟨.ctrl, h⟩, ⟨.status, h⟩, ⟨.cmd, h⟩, ⟨.opa, h⟩]
    · exact ⟨.matA ⟨(n - 0x040) / 4, by omega⟩, by simp only [Reg.offset]; omega⟩
    · exact ⟨.matB ⟨(n - 0x080) / 4, by omega⟩, by simp only [Reg.offset]; omega⟩
    · exact ⟨.vec ⟨(n - 0x0C0) / 4, by omega⟩, by simp only [Reg.offset]; omega⟩
    · obtain h | h | h | h : n = 0x100 ∨ n = 0x104 ∨ n = 0x108 ∨ n = 0x10C := by omega
      exacts [⟨.resScalar, h⟩, ⟨.resGcd, h⟩, ⟨.resDetLo, h⟩, ⟨.resDetHi, h⟩]
    · exact ⟨.matR ⟨(n - 0x140) / 4, by omega⟩, by simp only [Reg.offset]; omega⟩
    · exact ⟨.vecR ⟨(n - 0x180) / 4, by omega⟩, by simp only [Reg.offset]; omega⟩

/-! ## The port transactions that meet no register -/

theorem State.memRead_misaligned (s : State) {a : Addr} (h : aligned a = false) :
    s.memRead a = { s with port := .readDone 0#32 true } := by
  simp [State.memRead, h]

theorem State.memRead_reserved (s : State) {a : Addr} (h : aligned a = true) (hr : Reg.ofAddr a = none) :
    s.memRead a = { s with port := .readDone 0#32 false } := by
  simp [State.memRead, h, hr]

theorem State.memWrite_busError (s : State) {a : Addr} (v : Word) {k : Strobes}
    (h : aligned a = false ∨ k ≠ 0b1111#4) : s.memWrite a v k = { s with port := .writeDone true } := by
  rcases h with h | h <;> simp [State.memWrite, h]

theorem State.memWrite_reserved (s : State) {a : Addr} (v : Word) (h : aligned a = true)
    (hr : Reg.ofAddr a = none) : s.memWrite a v 0b1111#4 = { s with port := .writeDone false } := by
  simp [State.memWrite, h, hr]

/-! ## A host access at any address, as a step -/

section
variable {s : State} {a : Addr} {ops : List HostOp}

theorem step_of_host_read_any (h : HostNext s (.read a) ops) :
    step s = .next (({ s with host := ops, turns := s.turns.tail } : State).memRead a) := by
  obtain ⟨hturn, hhost⟩ := h
  simp only [step, hturn, takeTurn, hostTurn, hhost]

theorem step_of_host_write_any {v : Word} {k : Strobes} (h : HostNext s (.write a v k) ops) :
    step s = .next (({ s with host := ops, turns := s.turns.tail } : State).memWrite a v k) := by
  obtain ⟨hturn, hhost⟩ := h
  simp only [step, hturn, takeTurn, hostTurn, hhost]

/-- The host's view of an access with a bus error (R36). -/
theorem hostStep_of_busError {op : HostOp} (h : HostNext s op ops) (he : busError op = true) :
    hostStep s = .fault .hostBusError := by
  obtain ⟨hturn, hhost⟩ := h
  have hop : comingOp s = some op := by simp [comingOp, hturn, hhost]
  simp [hostStep, hop, he]

end

/-! ## The obligations -/

/-- Settles O32: either bus error sets the port's outputs alone, and `busError` tells it apart for the host. -/
theorem busErrorsChangeNothing : Obligations.BusErrorsChangeNothing := by
  refine ⟨fun s a ops h ha => ?_, fun s a v k ops h he => ?_⟩
  · have ha := aligned_eq_false_iff.mpr ha
    refine ⟨?_, hostStep_of_busError h (by simp [busError, ha])⟩
    rw [step_of_host_read_any h, State.memRead_misaligned _ ha]
  · rw [← aligned_eq_false_iff] at he
    refine ⟨?_, hostStep_of_busError h (by simpa [busError] using he)⟩
    rw [step_of_host_write_any h, State.memWrite_busError _ v he]

/-- Settles O33: the ranges of R38 are the aligned rest of the window once the offsets of R11 are taken out. -/
theorem reservedAddressesReadZero : Obligations.ReservedAddressesReadZero := by
  intro s a ops h4
  have ha := aligned_iff_toNat_mod.mpr h4
  refine ⟨?_, fun hr => ⟨fun h => ?_, fun v h => ?_⟩⟩
  · rw [Reg.ofAddr_eq_none_iff, Reg.exists_offset_iff]
    omega
  · rw [step_of_host_read_any h, State.memRead_reserved _ ha hr]
  · rw [step_of_host_write_any h, State.memWrite_reserved _ v ha hr]

end Sys2Proof.Machine
end

section
/-! Proofs about the decode checks: which words are refused, what a modulus of 0 does, and the order of the checks
(30_encoding.md R49-R53). -/

namespace Sys2Proof

/-! ## The decoder, by the fields of the word -/

theorem opcode_range_of_opcodeMap {op m : Nat} {i : Instr} (h : opcodeMap op m = some i) : 1 ≤ op ∧ op ≤ 9 :=
  (opcodeMap_isSome op m).mp (by simp [h])

/-- The opcodes up to 0x06 select the commands that use m, the others those that fix their moduli (R47, R48). -/
theorem modulus?_of_opcodeMap {op m : Nat} {i : Instr} (h : opcodeMap op m = some i) :
    i.modulus? = if op ≤ 6 then some m else none := by
  obtain ⟨h1, h9⟩ := opcode_range_of_opcodeMap h
  interval_cases op <;> cases h <;> rfl

/-- A word on which one of checks 1 to 3 fires is no command (R49-R51). -/
theorem decode_refuses {w : Word}
    (h : ¬ (1 ≤ (opcodeField w).toNat ∧ (opcodeField w).toNat ≤ 9) ∨ reservedField w ≠ 0 ∨
      (7 ≤ (opcodeField w).toNat ∧ modulusField w ≠ 0)) : ∃ e, decode w = .error e := by
  unfold decode
  cases hi : opcodeMap (opcodeField w).toNat (modulusField w).toNat with
  | none => exact ⟨_, rfl⟩
  | some i =>
    obtain hop | hrsv | ⟨h7, hm⟩ := h
    · exact absurd (opcode_range_of_opcodeMap hi) hop
    · exact ⟨_, if_pos hrsv⟩
    · have hfixed : i.modulus? = none := by rw [modulus?_of_opcodeMap hi, if_neg (by omega)]
      dsimp only
      rw [if_pos (show i.modulus? = none ∧ modulusField w ≠ 0 from ⟨hfixed, hm⟩)]
      split <;> exact ⟨_, rfl⟩

/-- A word on which none of checks 1 to 3 fires is the command of its opcode (R53). -/
theorem decode_of_opcodeMap {w : Word} {i : Instr}
    (hi : opcodeMap (opcodeField w).toNat (modulusField w).toNat = some i) (hrsv : reservedField w = 0)
    (hm : 7 ≤ (opcodeField w).toNat → modulusField w = 0) : decode w = .ok i := by
  have hfixed : ¬ (i.modulus? = none ∧ modulusField w ≠ 0) := by
    rintro ⟨hnone, hne⟩
    rw [modulus?_of_opcodeMap hi] at hnone
    split at hnone
    · cases hnone
    · exact hne (hm (by omega))
  simp only [decode, hi]
  rw [if_neg (not_not_intro hrsv), if_neg hfixed]

/-- The word of a well-formed command decodes to it, each command by its own lemma. -/
theorem decode_encode {i : Instr} (h : i.wellFormed = true) : decode (encode i) = .ok i := by
  cases i with
  | pmod m => exact Laws.RoundTrip.pmod m h
  | modinv m => exact Laws.RoundTrip.modinv m h
  | detm m => exact Laws.RoundTrip.detm m h
  | adjm m => exact Laws.RoundTrip.adjm m h
  | redm m => exact Laws.RoundTrip.redm m h
  | scalem m => exact Laws.RoundTrip.scalem m h
  | crt => exact Laws.RoundTrip.crt h
  | matvec => exact Laws.RoundTrip.matvec h
  | inv26 => exact Laws.RoundTrip.inv26 h

namespace Machine

open Sys2Proof.Safety

/-! ## The modulus of a command -/

/-- Check 4: a command that uses m completes with ILLEGAL_OPERAND at m = 0 (R52). -/
theorem commandResult_modulus_zero {i : Instr} (h : i.modulus? = some 0) (L : Latch) :
    commandResult i L = Completion.failed .illegalOperand := by
  cases i with
  | crt | matvec | inv26 => cases h
  | pmod m | modinv m | detm m | adjm m | redm m | scalem m =>
    cases h
    rfl

theorem exec_modulus_zero {i : Instr} (h : i.modulus? = some 0) (s : State) :
    exec i s = .next (completed s s.block .illegalOperand) := by
  rw [exec_eq, commandResult_modulus_zero h, State.complete_failed]

/-- With m not 0, a command that uses m ends with OK, or with NO_INVERSE from MODINV (R60, R61, R68-R71). -/
theorem commandResult_rc_of_modulus_pos {i : Instr} {m : Nat} (h : i.modulus? = some m) (hm : 1 ≤ m) (L : Latch) :
    (commandResult i L).rc = .ok ∨ (commandResult i L).rc = .noInverse := by
  cases i with
  | crt | matvec | inv26 => cases h
  | pmod m' | detm m' | adjm m' | redm m' | scalem m' =>
    cases h
    exact .inl (congrArg Completion.rc (guardModulus_pos hm _))
  | modinv m' =>
    cases h
    simp only [commandResult, modinvResult, guardModulus_pos hm]
    cases modularInverse L.scalar m with
    | none => exact .inr rfl
    | some x => exact .inl rfl

/-! ## Acceptance and completion, as steps -/

theorem Block.presentCommand_idle {b : Block} (h : b.latch.valid = false) (w : Word) :
    b.presentCommand w = b.accept w := by
  simp [Block.presentCommand, Block.busy, h]

/-- The completion of a word that decodes (R83, R84). -/
theorem step_of_decode_ok {s : State} {i : Instr} (h : CompletesNext s) (hi : decode s.block.latch.cmd = .ok i) :
    step s = exec i (inTurn s) := by
  have hres : latchResult s.block.latch = commandResult i s.block.latch := by simp only [latchResult, hi]
  rw [step_of_completion h, exec_eq, hres]
  rfl

/-- The completion of a word that is no command (R49-R51). -/
theorem step_of_decode_error {s : State} (h : CompletesNext s) (he : ∃ e, decode s.block.latch.cmd = .error e) :
    step s = .next (completed (inTurn s) s.block .illegalCommand) := by
  obtain ⟨e, he⟩ := he
  have hres : latchResult s.block.latch = Completion.failed .illegalCommand := by simp only [latchResult, he]
  rw [step_of_completion h, hres, State.complete_failed]
  rfl

/-- M is refused on each command that fixes its moduli, their opcodes being 0x07 and up (R51). -/
theorem modulusBitsRefused_of_fixed {op : BitVec 8} (h7 : 7 ≤ op.toNat) : ModulusBitsRefused op := by
  intro s h hop hm
  exact step_of_decode_error h (decode_refuses (.inr (.inr ⟨by rwa [opcodeField, hop], hm⟩)))

theorem reservedBitsRefused (op : BitVec 8) : ReservedBitsRefused op :=
  fun _ h _ hrsv => step_of_decode_error h (decode_refuses (.inr (.inl hrsv)))

/-! ## The obligations -/

/-- Settles O10: an idle CMD write latches any word, and each of checks 1 to 3 alone makes a word no command. -/
theorem illegalWordsCompleteWithIllegalCommand : Obligations.IllegalWordsCompleteWithIllegalCommand := by
  refine ⟨fun s w ops h hidle => ?_, fun s h hop => ?_, reservedBitsRefused,
    modulusBitsRefused_of_fixed (by decide), modulusBitsRefused_of_fixed (by decide),
    modulusBitsRefused_of_fixed (by decide)⟩
  · refine ⟨_, step_of_host_write (r := .cmd) h, ?_⟩
    simp only [Block.writeReg, Block.presentCommand_idle hidle]
    exact ⟨rfl, rfl, rfl⟩
  · refine step_of_decode_error h (decode_refuses (.inl fun ⟨h1, h9⟩ => ?_))
    obtain hop | hop := hop
    · rw [opcodeField, hop] at h1
      exact absurd h1 (by decide)
    · exact absurd (hop.trans h9) (by decide)

/-- Settles O11, by the modulus guard, which m = 0 fails and m = 1 passes. -/
theorem modulusZeroIsIllegalOperand : Obligations.ModulusZeroIsIllegalOperand := by
  refine ⟨fun i h => ⟨decode_encode ?_, exec_modulus_zero h⟩, fun i h s => ⟨_, exec_eq i s, ?_⟩, Int.emod_one⟩
  · simp [Instr.wellFormed, h]
  · obtain hrc | hrc := commandResult_rc_of_modulus_pos h le_rfl s.block.latch <;> simp [hrc]

/-- Settles O12: the first three checks are the decoder's; past them the step is the command of the opcode, whose
own guard is the fourth. -/
theorem decodeChecksRunInOrder : Obligations.DecodeChecksRunInOrder := by
  intro s op m rsv h hop hm hrsv
  change op = (opcodeField s.block.latch.cmd).toNat at hop
  change m = (modulusField s.block.latch.cmd).toNat at hm
  change rsv = (reservedField s.block.latch.cmd).toNat at hrsv
  have hrsv0 : rsv = 0 ↔ reservedField s.block.latch.cmd = 0 := by simp [hrsv, BitVec.toNat_eq]
  have hm0 : m = 0 ↔ modulusField s.block.latch.cmd = 0 := by simp [hm, BitVec.toNat_eq]
  by_cases h1 : ¬ (1 ≤ op ∧ op ≤ 9)
  · rw [if_pos h1]
    exact step_of_decode_error h (decode_refuses (.inl (hop ▸ h1)))
  rw [if_neg h1]
  by_cases h2 : rsv ≠ 0
  · rw [if_pos h2]
    exact step_of_decode_error h (decode_refuses (.inr (.inl (hrsv0.not.mp h2))))
  rw [if_neg h2]
  by_cases h3 : 7 ≤ op ∧ m ≠ 0
  · rw [if_pos h3]
    obtain ⟨h7, hne⟩ := h3
    exact step_of_decode_error h (decode_refuses (.inr (.inr ⟨hop ▸ h7, hm0.not.mp hne⟩)))
  rw [if_neg h3]
  have hexec : ∀ i, opcodeMap op m = some i → step s = exec i (inTurn s) := fun i hi =>
    step_of_decode_ok h (decode_of_opcodeMap (hop ▸ hm ▸ hi) (hrsv0.mp (by omega))
      fun h7 => hm0.mp (by omega))
  obtain ⟨hlo, hhi⟩ : 1 ≤ op ∧ op ≤ 9 := not_not.mp h1
  by_cases h4 : op ≤ 6 ∧ m = 0
  · rw [if_pos h4]
    obtain ⟨h6, hm4⟩ := h4
    obtain ⟨i, hi⟩ := Option.isSome_iff_exists.mp ((opcodeMap_isSome op m).mpr ⟨hlo, hhi⟩)
    have hmod : i.modulus? = some 0 := by rw [modulus?_of_opcodeMap hi, if_pos h6, hm4]
    rw [hexec i hi, exec_modulus_zero hmod]
    rfl
  rw [if_neg h4]
  clear hop
  interval_cases op <;> exact hexec _ rfl

end Machine
end Sys2Proof
end

section
/-! Proofs about the commands that use a modulus: their words as numbers, and the lines that stand for them
(30_encoding.md R46, R55). -/

namespace Sys2Proof.Machine

open Sys2Proof.Safety

/-! ## Words -/

theorem toNat_commandWord (op m : BitVec 8) : (commandWord op m).toNat = 256 * m.toNat + op.toNat := by
  change (0#16 ++ m ++ op : BitVec (16 + 8 + 8)).toNat = _
  rw [BitVec.toNat_append, BitVec.toNat_append, ← Nat.shiftLeft_add_eq_or_of_lt op.isLt, Nat.shiftLeft_eq]
  simp [Nat.mul_comm]

/-- The word of a command that uses m, as a number (R46, R55). -/
theorem encode_eq_ofNat {i : Instr} {m : Nat} (h : i.modulus? = some m) (hm : m < 256) :
    encode i = BitVec.ofNat 32 (256 * m + i.opcode.toNat) := by
  have hword : (encode i).toNat = 256 * m + i.opcode.toNat := by
    rw [encode, toNat_commandWord, h, Option.getD_some, BitVec.toNat_ofNat, Nat.mod_eq_of_lt hm]
  rw [← hword, BitVec.ofNat_toNat, BitVec.setWidth_eq]

theorem decode_ofNat {i : Instr} {m : Nat} (h : i.modulus? = some m) (hm : m < 256) :
    decode (BitVec.ofNat 32 (256 * m + i.opcode.toNat)) = .ok i := by
  rw [← encode_eq_ofNat h hm]
  exact decode_encode (by simp [Instr.wellFormed, h, hm])

/-! ## Numerals -/

theorem isNumeral_singleton {base v : Nat} {c : Char} (hc : (c, v) ∈ digitTable) (hv : v < base) :
    IsNumeral base [c] v :=
  ⟨List.cons_ne_nil _ _, [v], .cons ⟨hc, hv⟩ .nil, by simp⟩

/-- One more digit at the end of a numeral. -/
theorem isNumeral_append_digit {base n v : Nat} {ds : List Char} {c : Char} (h : IsNumeral base ds n)
    (hc : (c, v) ∈ digitTable) (hv : v < base) : IsNumeral base (ds ++ [c]) (base * n + v) := by
  obtain ⟨-, vs, hds, rfl⟩ := h
  exact ⟨by simp, vs ++ [v], List.rel_append hds (.cons ⟨hc, hv⟩ .nil), by simp⟩

/-- A numeral reads the same in upper case: the table has both cases of a digit. -/
theorem isNumeral_map_toUpper {base n : Nat} {ds : List Char} (h : IsNumeral base ds n) :
    IsNumeral base (ds.map Char.toUpper) n := by
  have hupper : ∀ p ∈ digitTable, (p.1.toUpper, p.2) ∈ digitTable := by decide
  obtain ⟨hne, vs, hds, hn⟩ := h
  refine ⟨by simpa using hne, vs, List.forall₂_map_left_iff.mpr (hds.imp ?_), hn⟩
  rintro c v ⟨hc, hv⟩
  exact ⟨hupper (c, v) hc, hv⟩

theorem digitChar_mem_digitTable {v : Nat} (hv : v < 16) : (v.digitChar, v) ∈ digitTable := by
  interval_cases v <;> decide

/-- The digits of a number in a base up to 16 are a numeral of it, by recursion on the quotient. -/
theorem isNumeral_toDigits {base : Nat} (h1 : 1 < base) (h16 : base ≤ 16) (n : Nat) :
    IsNumeral base (Nat.toDigits base n) n := by
  induction n using Nat.strong_induction_on with
  | _ n ih =>
    obtain hlt | hle := Nat.lt_or_ge n base
    · rw [Nat.toDigits_of_lt_base hlt]
      exact isNumeral_singleton (digitChar_mem_digitTable (hlt.trans_le h16)) hlt
    · have hmod : n % base < base := Nat.mod_lt n (by omega)
      have happ := isNumeral_append_digit (ih (n / base) (Nat.div_lt_self (by omega) h1))
        (digitChar_mem_digitTable (hmod.trans_le h16)) hmod
      rwa [Nat.div_add_mod, ← Nat.toDigits_of_base_le h1 hle] at happ

/-! ## Lines -/

/-- A line is cut at its first space. -/
theorem splitLine_append_space {name : List Char} (h : ' ' ∉ name) (text : List Char) :
    splitLine (name ++ ' ' :: text) = (name, some text) := by
  induction name with
  | nil => rfl
  | cons c cs ih =>
    obtain ⟨hc, hcs⟩ : ' ' ≠ c ∧ ' ' ∉ cs := by simpa using h
    rw [List.cons_append, splitLine, ih hcs]
    exact fun h => hc h.symm

/-- The line `MNEMONIC m` of a legal command (R55). -/
theorem assemble_modulusLine {name text : List Char} {m : Nat} {i : Instr} (hname : ' ' ∉ name)
    (hi : modulusCommand name m = some i) (hlegal : i.legal = true) (htext : IsLiteral text m) :
    assemble (name ++ ' ' :: text) = some (encode i) := by
  have hword : name ≠ ['.', 'w', 'o', 'r', 'd'] := by
    rintro rfl
    cases hi
  simp only [assemble, splitLine_append_space hname, if_neg hword, (readLiteral_iff text m).mpr htext, hi,
    if_pos hlegal]

/-- The three spellings of the modulus in `AssembledFrom` are literals of it (R55). -/
theorem assembledFrom_of_modulusCommand {name : List Char} {command : Nat → Instr} (hname : ' ' ∉ name)
    (hcommand : ∀ m, modulusCommand name m = some (command m)) (hmod : ∀ m, (command m).modulus? = some m) :
    AssembledFrom name command := by
  intro m h1 hm
  have hlegal : (command m).legal = true := by simp [Instr.legal, hmod, h1, hm]
  have hline : ∀ text, IsLiteral text m → assemble (name ++ ' ' :: text) = some (encode (command m)) :=
    fun text => assemble_modulusLine hname (hcommand m) hlegal
  have hhex := isNumeral_toDigits (base := 16) (by decide) le_rfl m
  exact ⟨hline _ (.inl (isNumeral_toDigits (by decide) (by decide) m)),
    hline _ (.inr ⟨_, rfl, isNumeral_map_toUpper hhex⟩), hline _ (.inr ⟨_, rfl, hhex⟩)⟩

end Sys2Proof.Machine
end

section
/-! Proofs about modular arithmetic: the inverse a modulus allows, and the commands PMOD and MODINV
(40_modular_arith.md R57-R61). -/

namespace Sys2Proof.Machine

open Sys2Proof.Safety

/-! ## Inverses modulo m -/

/-- a has an inverse in [0, m) exactly when it is coprime to m (R59). -/
theorem gcd_eq_one_iff_exists_inverse (a : Int) {m : Nat} (hm : 1 ≤ m) :
    Int.gcd a m = 1 ↔ ∃ x : Nat, x < m ∧ (m : Int) ∣ a * x - 1 := by
  rw [← Int.isCoprime_iff_gcd_eq_one]
  constructor
  · rintro ⟨u, v, huv⟩
    obtain ⟨h0, hlt, k, hk⟩ := positiveMod_spec u hm
    refine ⟨(positiveMod u m).toNat, by omega, -(v + a * k), ?_⟩
    rw [Int.toNat_of_nonneg h0]
    linear_combination huv - a * hk
  · rintro ⟨x, -, k, hk⟩
    exact ⟨x, -k, by linear_combination hk⟩

/-- An inverse in [0, m) is the only one: m divides y·(a·x - 1) - x·(a·y - 1), which is x - y. -/
theorem inverse_unique {a : Int} {m x y : Nat} (hx : x < m) (hy : y < m) (hax : (m : Int) ∣ a * x - 1)
    (hay : (m : Int) ∣ a * y - 1) : y = x := by
  refine Nat.ModEq.eq_of_lt_of_lt (Int.natCast_modEq_iff.mp (Int.modEq_iff_dvd.mpr ?_)) hy hx
  have hdiff : (x : Int) - y = y * (a * x - 1) - x * (a * y - 1) := by ring
  rw [hdiff]
  exact dvd_sub (hax.mul_left _) (hay.mul_left _)

/-- The test `modularInverse` makes of each x: reducing a and 1 first makes no difference (R59). -/
theorem positiveMod_mul_eq_one_iff (a : Int) (m x : Nat) :
    positiveMod (positiveMod a m * x) m = positiveMod 1 m ↔ (m : Int) ∣ a * x - 1 := by
  have hreduced : positiveMod (positiveMod a m * x) m = positiveMod (a * x) m :=
    (Int.mod_modEq a m).mul_right x
  rw [hreduced, eq_comm]
  exact Int.modEq_iff_dvd

/-- `modularInverse` gives x exactly when x is in [0, m) and a·x is congruent to 1. -/
theorem modularInverse_eq_some_iff (a : Int) {m : Nat} (hm : 1 ≤ m) (x : Nat) :
    modularInverse a m = some x ↔ x < m ∧ (m : Int) ∣ a * x - 1 := by
  unfold modularInverse
  rw [residueGcd_eq a hm]
  by_cases hg : Int.gcd a m = 1
  · rw [if_neg (not_not_intro hg), List.find?_range_eq_some]
    simp only [beq_iff_eq, positiveMod_mul_eq_one_iff, List.mem_range, Bool.not_eq_true', beq_eq_false_iff_ne, ne_eq]
    constructor
    · rintro ⟨hax, hx, -⟩
      exact ⟨hx, hax⟩
    · rintro ⟨hx, hax⟩
      refine ⟨hax, hx, fun y hy hay => ?_⟩
      exact hy.ne (inverse_unique hx (hy.trans hx) hax hay)
  · rw [if_pos hg]
    simp only [reduceCtorEq, false_iff]
    exact fun hx => hg ((gcd_eq_one_iff_exists_inverse a hm).mpr ⟨x, hx⟩)

theorem modularInverse_eq_none_iff (a : Int) {m : Nat} (hm : 1 ≤ m) :
    modularInverse a m = none ↔ Int.gcd a m ≠ 1 := by
  simp only [Option.eq_none_iff_forall_ne_some, ne_eq, modularInverse_eq_some_iff a hm,
    gcd_eq_one_iff_exists_inverse a hm, not_exists]

theorem exists_modularInverse {a : Int} {m : Nat} (hm : 1 ≤ m) (hg : Int.gcd a m = 1) :
    ∃ x, modularInverse a m = some x :=
  Option.ne_none_iff_exists'.mp fun hnone => (modularInverse_eq_none_iff a hm).mp hnone hg

/-! ## PMOD and MODINV -/

theorem isResidue_positiveMod (a : Int) {m : Nat} (hm : 1 ≤ m) : IsResidue a m (positiveMod a m).toNat := by
  obtain ⟨h0, hlt, hdvd⟩ := positiveMod_spec a hm
  refine ⟨by omega, ?_⟩
  rwa [Int.toNat_of_nonneg h0]

/-- The residue goes to RES_SCALAR and nowhere else (R60). -/
theorem exec_pmod {m : Nat} (hm : 1 ≤ m) (s : State) :
    exec (.pmod m) s = .next (completed s
      { s.block with resScalar := BitVec.ofNat 32 (positiveMod s.block.latch.opa.toInt m).toNat } .ok) := by
  rw [exec_eq, commandResult, pmodResult, guardModulus_pos hm, resultWord_eq (positiveMod_spec _ hm).1]
  rfl

/-- An inverse goes to RES_SCALAR, beside the gcd 1 (R61). -/
theorem exec_modinv_of_some {m x : Nat} (hm : 1 ≤ m) {s : State}
    (hg : Int.gcd s.block.latch.opa.toInt m = 1) (hx : modularInverse s.block.latch.opa.toInt m = some x) :
    exec (.modinv m) s = .next (completed s
      { s.block with resGcd := 1#32, resScalar := BitVec.ofNat 32 x } .ok) := by
  rw [← Latch.scalar] at hg hx
  simp only [exec_eq, commandResult, modinvResult, guardModulus_pos hm, hx, residueGcd_eq _ hm, hg]
  rfl

/-- Without an inverse RES_GCD alone is written (R61). -/
theorem exec_modinv_of_none {m : Nat} (hm : 1 ≤ m) {s : State}
    (hx : modularInverse s.block.latch.opa.toInt m = none) :
    exec (.modinv m) s = .next (completed s
      { s.block with resGcd := BitVec.ofNat 32 (Int.gcd s.block.latch.opa.toInt m) } .noInverse) := by
  rw [← Latch.scalar] at hx
  simp only [exec_eq, commandResult, modinvResult, guardModulus_pos hm, hx, residueGcd_eq _ hm]
  rfl

/-! ## The obligations -/

/-- Settles O22: `modularInverse` gives the x with a·x congruent to 1, of which [0, m) holds at most one, and holds
one just when a is coprime to m. -/
theorem modularInverseExistsExactlyForUnits : Obligations.ModularInverseExistsExactlyForUnits := by
  intro a m hm
  obtain ⟨h0, hlt, hdvd⟩ := positiveMod_spec a hm
  refine ⟨h0, hlt, hdvd, modularInverse_eq_none_iff a hm, fun x h => ?_⟩
  obtain ⟨hx, hax⟩ := (modularInverse_eq_some_iff a hm x).mp h
  exact ⟨hx, hax, fun y hy hay => inverse_unique hx hy hax hay⟩

/-- Settles O13: the residue by the spec of `positiveMod`, its words and lines by the rules of every command that uses
a modulus. -/
theorem pmodWritesResidue : Obligations.PmodWritesResidue := by
  refine ⟨fun m s h1 _ => ⟨_, isResidue_positiveMod _ h1, exec_pmod h1 s⟩, exec_modulus_zero rfl,
    fun m hm => decode_ofNat (i := .pmod m) rfl hm, ?_, reservedBitsRefused _⟩
  exact assembledFrom_of_modulusCommand (by decide) (fun _ => rfl) (fun _ => rfl)

/-- Settles O14: the gcd decides whether `modularInverse` has an inverse to give, and each answer has its completion. -/
theorem modinvWritesGcdAndInverse : Obligations.ModinvWritesGcdAndInverse := by
  refine ⟨fun m s h1 _ => ⟨fun hg => ?_, fun hg => ?_⟩, exec_modulus_zero rfl,
    fun m hm => decode_ofNat (i := .modinv m) rfl hm, ?_, reservedBitsRefused _⟩
  · obtain ⟨x, hx⟩ := exists_modularInverse h1 hg
    obtain ⟨hlt, hinv⟩ := (modularInverse_eq_some_iff _ h1 x).mp hx
    exact ⟨x, hlt, hinv, exec_modinv_of_some h1 hg hx⟩
  · exact exec_modinv_of_none h1 ((modularInverse_eq_none_iff _ h1).mpr hg)
  · exact assembledFrom_of_modulusCommand (by decide) (fun _ => rfl) (fun _ => rfl)

end Sys2Proof.Machine
end

section
/-! Proofs about 3×3 matrices: `determinant` and `adjugate` are those of the matrix that the nine elements make
(00_scope.md R8; 41_matrix_algebra.md R62, R63). -/

namespace Sys2Proof.Machine

open Sys2Proof.Safety

theorem intMatrixOf_toInts (M : Mat3 Elem) : intMatrixOf M.toInts = matrixOf M := by
  ext r c
  exact Mat3.entry_map _ M r c

theorem determinant_eq_det (M : Mat3 Int) : determinant M = (intMatrixOf M).det := by
  rw [Matrix.det_fin_three]
  simp only [determinant, intMatrixOf, Matrix.of_apply, Mat3.entry, Mat3.get]
  ring

theorem intMatrixOf_adjugate (M : Mat3 Int) : intMatrixOf (adjugate M) = (intMatrixOf M).adjugate := by
  rw [Matrix.adjugate_fin_three]
  ext r c
  fin_cases r <;> fin_cases c <;> simp [adjugate, intMatrixOf, Mat3.entry, Mat3.get] <;> ring

/-! ## The obligation -/

/-- Settles O23: the model's determinant and adjugate are Mathlib's, whose laws these are. -/
theorem determinantAndAdjugateAreExact : Obligations.DeterminantAndAdjugateAreExact := by
  intro M
  refine ⟨determinant_eq_det M, rfl, fun r c => ?_, ?_, ?_⟩
  · change intMatrixOf (adjugate M) r c = _
    rw [intMatrixOf_adjugate, Matrix.adjugate_fin_succ_eq_det_submatrix, Nat.add_comm]
  · rw [intMatrixOf_adjugate, determinant_eq_det, Matrix.mul_adjugate]
  · rw [intMatrixOf_adjugate, determinant_eq_det, Matrix.adjugate_mul]

end Sys2Proof.Machine
end

section
/-! Proofs about the bounds of R64: the products, the minors and the determinant of 16-bit elements, and the 64-bit
word that holds the determinant (41_matrix_algebra.md R64; 10_state.md R23). -/

namespace Sys2Proof.Machine

open scoped Matrix

/-! ## Products and minors -/

theorem toInts_get_bounds (M : Mat3 Elem) (i : Fin 9) :
    -(2 : Int) ^ 15 ≤ M.toInts.get i ∧ M.toInts.get i ≤ 2 ^ 15 - 1 := by
  rw [Mat3.toInts, Mat3.get_map]
  exact ⟨(M.get i).le_toInt, Int.le_sub_one_of_lt (M.get i).toInt_lt⟩

/-- The range of a product of two elements: its ends are the products of the ends of their range. -/
theorem mul_bounds {x y : Int} (hx : -(2 : Int) ^ 15 ≤ x ∧ x ≤ 2 ^ 15 - 1)
    (hy : -(2 : Int) ^ 15 ≤ y ∧ y ≤ 2 ^ 15 - 1) : -(2 : Int) ^ 30 + 2 ^ 15 ≤ x * y ∧ x * y ≤ 2 ^ 30 := by
  obtain ⟨hxlo, hxhi⟩ := hx
  obtain ⟨hylo, hyhi⟩ := hy
  constructor
  · nlinarith [mul_nonneg (sub_nonneg.mpr hxlo) (sub_nonneg.mpr hylo),
      mul_nonneg (sub_nonneg.mpr hxhi) (sub_nonneg.mpr hyhi)]
  · nlinarith [mul_nonneg (sub_nonneg.mpr hxlo) (sub_nonneg.mpr hyhi),
      mul_nonneg (sub_nonneg.mpr hxhi) (sub_nonneg.mpr hylo)]

/-- Every adjugate element is a difference of two products of elements (R63). -/
theorem adjugate_get_eq_sub (M : Mat3 Int) (i : Fin 9) :
    ∃ a b c d : Fin 9, (adjugate M).get i = M.get a * M.get b - M.get c * M.get d := by
  fin_cases i
  · exact ⟨4, 8, 5, 7, rfl⟩
  · exact ⟨2, 7, 1, 8, neg_sub _ _⟩
  · exact ⟨1, 5, 2, 4, rfl⟩
  · exact ⟨5, 6, 3, 8, neg_sub _ _⟩
  · exact ⟨0, 8, 2, 6, rfl⟩
  · exact ⟨2, 3, 0, 5, neg_sub _ _⟩
  · exact ⟨3, 7, 4, 6, rfl⟩
  · exact ⟨1, 6, 0, 7, neg_sub _ _⟩
  · exact ⟨0, 4, 1, 3, rfl⟩

theorem abs_adjugate_get_le (M : Mat3 Elem) (i : Fin 9) : |(adjugate M.toInts).get i| ≤ (2 : Int) ^ 31 - 2 ^ 15 := by
  obtain ⟨a, b, c, d, h⟩ := adjugate_get_eq_sub M.toInts i
  have hab := mul_bounds (toInts_get_bounds M a) (toInts_get_bounds M b)
  have hcd := mul_bounds (toInts_get_bounds M c) (toInts_get_bounds M d)
  rw [h, abs_le]
  omega

/-! ## The determinant

With u = 2x + 1 the range [-2^15, 2^15 - 1] of an element x becomes [-N, N], N = 65535, and 8 times the determinant of
the x is that of the u less the sum of their cofactors: two quantities bounded by 4·N^3 and by 12·N^2. -/

section
variable {N : Int} {a b u s : Fin 3 → Int}

theorem abs_dotProduct_le (ha : ∀ i, |a i| ≤ N) (b : Fin 3 → Int) : |a ⬝ᵥ b| ≤ N * ∑ i, |b i| := by
  rw [Finset.mul_sum]
  refine (Finset.abs_sum_le_sum_abs _ _).trans (Finset.sum_le_sum fun i _ => ?_)
  rw [abs_mul]
  exact mul_le_mul_of_nonneg_right (ha i) (abs_nonneg _)

/-- Up to signs, the components of a cross product with a vector of signs are the three differences of three numbers
of [-N, N], whose magnitudes add up to twice the largest of them. -/
theorem sum_abs_cross_signs_le (ha : ∀ i, |a i| ≤ N) (hs : ∀ i, s i = 1 ∨ s i = -1) :
    ∑ i, |(a ⨯₃ s) i| ≤ 4 * N := by
  have h0 := ha 0
  have h1 := ha 1
  have h2 := ha 2
  simp only [Fin.sum_univ_three, cross_apply, Matrix.cons_val, abs_eq_max_neg] at *
  obtain hs0 | hs0 := hs 0 <;> obtain hs1 | hs1 := hs 1 <;> obtain hs2 | hs2 := hs 2 <;>
    rw [hs0, hs1, hs2] <;> omega

theorem abs_signs_dot_cross_le (ha : ∀ i, |a i| ≤ N) (hb : ∀ i, |b i| ≤ N) (hs : ∀ i, s i = 1 ∨ s i = -1) :
    |s ⬝ᵥ a ⨯₃ b| ≤ 4 * N ^ 2 := by
  have hN : 0 ≤ N := (abs_nonneg _).trans (ha 0)
  rw [triple_product_permutation]
  calc |a ⬝ᵥ b ⨯₃ s| ≤ N * ∑ i, |(b ⨯₃ s) i| := abs_dotProduct_le ha _
    _ ≤ N * (4 * N) := mul_le_mul_of_nonneg_left (sum_abs_cross_signs_le hb hs) hN
    _ = 4 * N ^ 2 := by ring

theorem sum_abs_eq_signs_dot (c : Fin 3 → Int) : ∑ i, |c i| = (fun i => if 0 ≤ c i then 1 else -1) ⬝ᵥ c := by
  refine Finset.sum_congr rfl fun i _ => ?_
  dsimp only
  split
  · rw [abs_of_nonneg ‹_›, one_mul]
  · rw [abs_of_neg (not_le.mp ‹_›), neg_one_mul]

theorem abs_triple_product_le (hu : ∀ i, |u i| ≤ N) (ha : ∀ i, |a i| ≤ N) (hb : ∀ i, |b i| ≤ N) :
    |u ⬝ᵥ a ⨯₃ b| ≤ 4 * N ^ 3 := by
  have hN : 0 ≤ N := (abs_nonneg _).trans (ha 0)
  have hsum : ∑ i, |(a ⨯₃ b) i| ≤ 4 * N ^ 2 := by
    rw [sum_abs_eq_signs_dot]
    exact (le_abs_self _).trans (abs_signs_dot_cross_le ha hb fun i => ite_eq_or_eq _ _ _)
  calc |u ⬝ᵥ a ⨯₃ b| ≤ N * ∑ i, |(a ⨯₃ b) i| := abs_dotProduct_le hu _
    _ ≤ N * (4 * N ^ 2) := mul_le_mul_of_nonneg_left hsum hN
    _ = 4 * N ^ 3 := by ring

end

/-- Row r of the matrix with 2x + 1 in the place of each element x. -/
def oddRow (M : Mat3 Int) (r : Fin 3) : Fin 3 → Int := fun c => 2 * M.entry r c + 1

/-- The sum of the cofactors is a sum over the pairs of rows, the third row replaced by ones in each. -/
theorem eight_mul_determinant (M : Mat3 Int) : 8 * determinant M = oddRow M 0 ⬝ᵥ oddRow M 1 ⨯₃ oddRow M 2
    - (1 ⬝ᵥ oddRow M 0 ⨯₃ oddRow M 1 + 1 ⬝ᵥ oddRow M 1 ⨯₃ oddRow M 2 + 1 ⬝ᵥ oddRow M 2 ⨯₃ oddRow M 0) := by
  simp only [dotProduct, Fin.sum_univ_three, cross_apply, Matrix.cons_val, Pi.one_apply, oddRow, Mat3.entry,
    Mat3.get, determinant]
  ring

theorem eight_mul_abs_determinant_le {M : Mat3 Int} {N : Int} (h : ∀ r c, |oddRow M r c| ≤ N) :
    8 * |determinant M| ≤ 4 * N ^ 3 + 12 * N ^ 2 := by
  have hrows := abs_le.mp (abs_triple_product_le (h 0) (h 1) (h 2))
  have hpair : ∀ r r', |1 ⬝ᵥ oddRow M r ⨯₃ oddRow M r'| ≤ 4 * N ^ 2 := fun r r' =>
    abs_signs_dot_cross_le (h r) (h r') fun _ => .inl rfl
  have h01 := abs_le.mp (hpair 0 1)
  have h12 := abs_le.mp (hpair 1 2)
  have h20 := abs_le.mp (hpair 2 0)
  have h8 := eight_mul_determinant M
  obtain ⟨habs, -⟩ | ⟨habs, -⟩ := abs_cases (determinant M) <;> rw [habs] <;> linarith

theorem abs_determinant_toInts_le (M : Mat3 Elem) : |determinant M.toInts| ≤ 140737488257025 := by
  have hodd : ∀ r c, |oddRow M.toInts r c| ≤ 65535 := fun r c => by
    obtain ⟨hlo, hhi⟩ : -(2 : Int) ^ 15 ≤ M.toInts.entry r c ∧ M.toInts.entry r c ≤ 2 ^ 15 - 1 :=
      toInts_get_bounds M _
    rw [oddRow, abs_le]
    omega
  have h8 := eight_mul_abs_determinant_le hodd
  omega

/-! ## The word of the determinant -/

/-- A determinant below 2^47 in magnitude needs 48 bits; the 64-bit word extends them by the sign. -/
theorem determinantWord_eq_signExtend {d : Int} (h : |d| < 2 ^ 47) :
    (BitVec.ofInt 48 d).toInt = d ∧ determinantWord d = (BitVec.ofInt 48 d).signExtend 64 := by
  obtain ⟨hlo, hhi⟩ := abs_lt.mp h
  have h48 : (BitVec.ofInt 48 d).toInt = d := BitVec.toInt_ofInt_eq_self (by decide) hlo.le hhi
  have h64 : (BitVec.ofInt 64 d).toInt = d := BitVec.toInt_ofInt_eq_self (by decide) (by omega) (by omega)
  refine ⟨h48, BitVec.eq_of_toInt_eq ?_⟩
  rw [determinantWord, h64, BitVec.toInt_signExtend_of_le (by decide), h48]

theorem toInt_determinantWord {d : Int} (h : |d| < 2 ^ 47) : (determinantWord d).toInt = d := by
  obtain ⟨h48, hword⟩ := determinantWord_eq_signExtend h
  rw [hword, BitVec.toInt_signExtend_of_le (by decide), h48]

/-- Bits [63:48] of the word are copies of bit 47 (R23, R64). -/
theorem determinantWord_sign_copies {d : Int} (h : |d| < 2 ^ 47) (k : Fin 16) :
    (determinantWord d).getLsbD (48 + k.val) = (determinantWord d).getLsbD 47 := by
  obtain ⟨-, hword⟩ := determinantWord_eq_signExtend h
  have hk : 48 + k.val < 64 := by omega
  rw [hword, BitVec.getLsbD_signExtend, BitVec.getLsbD_signExtend, if_neg (by omega), if_pos (by decide),
    BitVec.msb_eq_getLsbD_last]
  simp [hk]

theorem abs_determinant_toInts_lt (M : Mat3 Elem) : |determinant M.toInts| < 2 ^ 47 :=
  (abs_determinant_toInts_le M).trans_lt (by norm_num)

/-! ## The obligation -/

/-- Settles O24: the largest determinant is that of the greatest element on the diagonal and the least elsewhere. -/
theorem determinantFitsFortyEightBits : Obligations.DeterminantFitsFortyEightBits := by
  refine ⟨fun M => ⟨fun i j => mul_bounds (toInts_get_bounds M i) (toInts_get_bounds M j), abs_adjugate_get_le M,
    abs_determinant_toInts_le M, toInt_determinantWord (abs_determinant_toInts_lt M),
    determinantWord_sign_copies (abs_determinant_toInts_lt M)⟩, ?_⟩
  exact ⟨⟨0x7FFF, 0x8000, 0x8000, 0x8000, 0x7FFF, 0x8000, 0x8000, 0x8000, 0x7FFF⟩, by decide, by decide⟩

end Sys2Proof.Machine
end

section
/-! Proofs about the matrix commands DETM, ADJM, REDM, SCALEM and MATVEC (41_matrix_algebra.md R65-R72). -/

namespace Sys2Proof.Machine

open Sys2Proof.Safety

/-! ## Residues in the result registers -/

/-- An 8-bit result element holds a residue of any modulus the M field can give. -/
theorem isResidue_resElem (a : Int) {m : Nat} (h1 : 1 ≤ m) (hm : m < 256) :
    IsResidue a m (BitVec.ofInt 8 (positiveMod a m)).toNat := by
  obtain ⟨h0, hlt, -⟩ := positiveMod_spec a h1
  rw [resElem_toNat h0 (by omega)]
  exact isResidue_positiveMod a h1

theorem isResidue_entry_reduceMod (X : Mat3 Int) {m : Nat} (h1 : 1 ≤ m) (hm : m < 256) (r c : Fin 3) :
    IsResidue (intMatrixOf X r c) m ((resultMatrix (reduceMod X m)).entry r c).toNat := by
  rw [resultMatrix, reduceMod, Mat3.entry_map, Mat3.entry_map]
  exact isResidue_resElem _ h1 hm

/-- Each component of `matVecMod` is the residue of the component of the product (R67). -/
theorem matVecMod_get (M : Mat3 Elem) (v : Vec3 Elem) (m : Nat) (r : Fin 3) :
    (matVecMod M.toInts v.toInts m).get r = positiveMod ((matrixOf M).mulVec (vectorOf v) r) m := by
  rw [Matrix.mulVec, dotProduct, Fin.sum_univ_three]
  fin_cases r <;> rfl

/-! ## What the commands write -/

/-- A command that computes a matrix and reduces it mod m writes MAT_R and nothing else (R69-R71). -/
theorem exec_writes_reduced {i : Instr} {m : Nat} {s : State} {X : Mat3 Int} (h1 : 1 ≤ m) (hm : m < 256)
    (hi : commandResult i s.block.latch =
      guardModulus m { rc := .ok, writes := { matR := some (resultMatrix (reduceMod X m)) } }) :
    ∃ R : Mat3 ResElem, (∀ r c, IsResidue (intMatrixOf X r c) m (R.entry r c).toNat) ∧
      exec i s = .next (completed s { s.block with matR := R } .ok) := by
  refine ⟨_, isResidue_entry_reduceMod X h1 hm, ?_⟩
  rw [exec_eq, hi, guardModulus_pos h1]
  rfl

/-- The determinant goes to RES_DET, its residue to RES_SCALAR, and nothing elsewhere (R68). -/
theorem exec_detm {m : Nat} (h1 : 1 ≤ m) (s : State) :
    exec (.detm m) s = .next (completed s { s.block with
      resDetLo := (determinantWord (determinant s.block.latch.matA.toInts)).extractLsb' 0 32
      resDetHi := (determinantWord (determinant s.block.latch.matA.toInts)).extractLsb' 32 32
      resScalar := BitVec.ofNat 32 (positiveMod (determinant s.block.latch.matA.toInts) m).toNat } .ok) := by
  rw [exec_eq, commandResult, detmResult, guardModulus_pos h1, resultWord_eq (positiveMod_spec _ h1).1]
  rfl

/-- The product goes to VEC_R and nowhere else (R72). -/
theorem exec_matvec (s : State) :
    exec .matvec s = .next (completed s { s.block with
      vecR := resultVector (matVecMod s.block.latch.matA.toInts s.block.latch.vec.toInts 26) } .ok) :=
  exec_eq .matvec s

/-! ## The obligations -/

/-- Settles O15: the 64-bit word holds the determinant because 16-bit elements keep it below 2^47. -/
theorem detmWritesDeterminantAndResidue : Obligations.DetmWritesDeterminantAndResidue := by
  refine ⟨fun m s h1 _ => ?_, exec_modulus_zero rfl, fun m hm => decode_ofNat (i := .detm m) rfl hm, ?_,
    reservedBitsRefused _⟩
  · rw [← intMatrixOf_toInts, ← determinant_eq_det]
    exact ⟨_, _, toInt_determinantWord (abs_determinant_toInts_lt _), isResidue_positiveMod _ h1, exec_detm h1 s⟩
  · exact assembledFrom_of_modulusCommand (by decide) (fun _ => rfl) (fun _ => rfl)

/-- Settles O16: ADJM reduces the adjugate, which is that of the matrix in MAT_A. -/
theorem adjmWritesReducedAdjugate : Obligations.AdjmWritesReducedAdjugate := by
  refine ⟨fun m s h1 hm => ?_, exec_modulus_zero rfl, fun m hm => decode_ofNat (i := .adjm m) rfl hm, ?_,
    reservedBitsRefused _⟩
  · rw [← intMatrixOf_toInts, ← intMatrixOf_adjugate]
    exact exec_writes_reduced h1 hm rfl
  · exact assembledFrom_of_modulusCommand (by decide) (fun _ => rfl) (fun _ => rfl)

/-- Settles O17: REDM reduces MAT_A itself. -/
theorem redmWritesReducedMatrix : Obligations.RedmWritesReducedMatrix := by
  refine ⟨fun m s h1 hm => ?_, exec_modulus_zero rfl, fun m hm => decode_ofNat (i := .redm m) rfl hm, ?_,
    reservedBitsRefused _⟩
  · rw [← intMatrixOf_toInts]
    exact exec_writes_reduced h1 hm rfl
  · exact assembledFrom_of_modulusCommand (by decide) (fun _ => rfl) (fun _ => rfl)

/-- Settles O18: SCALEM reduces the matrix of the exact products. -/
theorem scalemWritesScaledMatrix : Obligations.ScalemWritesScaledMatrix := by
  refine ⟨fun m s h1 hm => ?_, exec_modulus_zero rfl, fun m hm => decode_ofNat (i := .scalem m) rfl hm, ?_,
    reservedBitsRefused _⟩
  · have hproduct : ∀ r c, intMatrixOf (s.block.latch.matA.toInts.map (· * s.block.latch.opa.toInt)) r c =
        matrixOf s.block.latch.matA r c * s.block.latch.opa.toInt := fun r c => by
      rw [← intMatrixOf_toInts]
      exact Mat3.entry_map _ _ r c
    simp only [← hproduct]
    exact exec_writes_reduced h1 hm rfl
  · exact assembledFrom_of_modulusCommand (by decide) (fun _ => rfl) (fun _ => rfl)

/-- Settles O20: the components of `matVecMod` are residues of those of the product, which fit VEC_R. -/
theorem matvecWritesProduct : Obligations.MatvecWritesProduct := by
  refine ⟨fun s => ⟨_, fun r => ?_, exec_matvec s⟩, rfl, rfl, reservedBitsRefused _,
    modulusBitsRefused_of_fixed (by decide)⟩
  rw [resultVector, Vec3.get_map, matVecMod_get]
  exact isResidue_resElem _ (by decide) (by decide)

end Sys2Proof.Machine
end

section
/-! Proofs about the CRT recombiner, the key inverter and the commands CRT and INV26 (42_crt_inverter.md R73-R80). -/

namespace Sys2Proof

/-! ## Matrices by their entries -/

/-- Two matrices with the same entries are equal. -/
theorem Mat3.ext_entry {α : Type} {A B : Mat3 α} (h : ∀ r c, A.entry r c = B.entry r c) : A = B :=
  Mat3.ext_get fun i => by
    fin_cases i
    exacts [h 0 0, h 0 1, h 0 2, h 1 0, h 1 1, h 1 2, h 2 0, h 2 1, h 2 2]

theorem Mat3.entry_zipWith {α β γ : Type} (f : α → β → γ) (A : Mat3 α) (B : Mat3 β) (r c : Fin 3) :
    (Mat3.zipWith f A B).entry r c = f (A.entry r c) (B.entry r c) :=
  Mat3.get_zipWith f A B _

namespace Machine

open Sys2Proof.Safety

/-! ## The recombiner -/

/-- `crt26` is pinned by its two residues and its range: 13 is 1 mod 2 and 0 mod 13, 14 is 0 mod 2 and 1 mod 13
(R73, R74). -/
theorem eq_crt26_iff {a b x : Int} : x = crt26 a b ↔ (0 ≤ x ∧ x < 26) ∧ x % 2 = a % 2 ∧ x % 13 = b % 13 := by
  have hdef : crt26 a b = (13 * (a % 2) + 14 * (b % 13)) % 26 := rfl
  rw [hdef]
  constructor
  · rintro rfl
    omega
  · omega

theorem crt26_range (a b : Int) : 0 ≤ crt26 a b ∧ crt26 a b < 26 := (eq_crt26_iff.mp rfl).1

theorem crt26_modEq_two (a b : Int) : crt26 a b ≡ a [ZMOD 2] := (eq_crt26_iff.mp rfl).2.1

theorem crt26_modEq_thirteen (a b : Int) : crt26 a b ≡ b [ZMOD 13] := (eq_crt26_iff.mp rfl).2.2

theorem entry_zipWith_crt26_range (A B : Mat3 Int) (r c : Fin 3) :
    0 ≤ (Mat3.zipWith crt26 A B).entry r c ∧ (Mat3.zipWith crt26 A B).entry r c < 26 := by
  rw [Mat3.entry_zipWith]
  exact crt26_range _ _

/-- Scaling mod 2 and mod 13 and recombining is scaling mod 26 by the recombined factor. -/
theorem crt26_scaled (a u v : Int) :
    crt26 (positiveMod (positiveMod a 2 * u) 2) (positiveMod (positiveMod a 13 * v) 13) =
      positiveMod (a * crt26 u v) 26 := by
  obtain ⟨h0, hlt, -⟩ := positiveMod_spec (a * crt26 u v) (m := 26) (by decide)
  have hreduce : ∀ (m : Nat) (w : Int), positiveMod (positiveMod a m * w) m ≡ a * w [ZMOD m] := fun m w =>
    (Int.mod_modEq _ _).trans ((Int.mod_modEq a m).mul_right w)
  have hlarge : positiveMod (a * crt26 u v) 26 ≡ a * crt26 u v [ZMOD 26] := Int.mod_modEq _ _
  refine (eq_crt26_iff.mpr ⟨⟨h0, hlt⟩, ?_, ?_⟩).symm
  · exact (hlarge.of_dvd (by decide)).trans (((crt26_modEq_two u v).mul_left a).trans (hreduce 2 u).symm)
  · exact (hlarge.of_dvd (by decide)).trans (((crt26_modEq_thirteen u v).mul_left a).trans (hreduce 13 v).symm)

/-! ## The outcomes of the inverter -/

theorem gcd_eq_one_iff_emod_ne_zero (d : Int) {p : Nat} (hp : p.Prime) : Int.gcd d p = 1 ↔ d % p ≠ 0 := by
  rw [← Int.isCoprime_iff_gcd_eq_one, isCoprime_comm,
    (Nat.prime_iff_prime_int.mp hp).irreducible.coprime_iff_not_dvd, Int.dvd_iff_emod_eq_zero]

/-- The units mod 26 are the integers that are units mod 2 and mod 13. -/
theorem gcd_twentySix_eq_one_iff (d : Int) : Int.gcd d 26 = 1 ↔ Int.gcd d 2 = 1 ∧ Int.gcd d 13 = 1 := by
  simp only [← Int.isCoprime_iff_gcd_eq_one]
  rw [show (26 : Int) = 2 * 13 by norm_num, IsCoprime.mul_right_iff]

theorem modularInverse_positiveMod (a : Int) (m : Nat) :
    modularInverse (positiveMod a m) m = modularInverse a m := by
  have hidem : positiveMod (positiveMod a m) m = positiveMod a m := Int.emod_emod a m
  rw [modularInverse, residueGcd, hidem]
  rfl

theorem invert26_of_even {K : Mat3 Int} (h2 : determinant K % 2 = 0) : invert26 K = .error .noninvMod2 :=
  if_pos h2

theorem invert26_of_odd_multiple {K : Mat3 Int} (h2 : determinant K % 2 ≠ 0) (h13 : determinant K % 13 = 0) :
    invert26 K = .error .noninvMod13 :=
  (if_neg h2).trans (if_pos h13)

/-- Where the determinant is a unit the inverter answers the adjugate times an inverse of it, mod 26 (R76, R79). -/
theorem invert26_of_unit {K : Mat3 Int} (hd : Int.gcd (determinant K) 26 = 1) :
    ∃ e : Int, (26 : Int) ∣ determinant K * e - 1 ∧ invert26 K = .ok (scaleMod (adjugate K) e 26) := by
  obtain ⟨hg2, hg13⟩ := (gcd_twentySix_eq_one_iff _).mp hd
  have h2 : positiveMod (determinant K) 2 ≠ 0 := (gcd_eq_one_iff_emod_ne_zero _ Nat.prime_two).mp hg2
  have h13 : positiveMod (determinant K) 13 ≠ 0 := (gcd_eq_one_iff_emod_ne_zero _ (by decide)).mp hg13
  obtain ⟨u, hu⟩ := exists_modularInverse (by decide) hg2
  obtain ⟨v, hv⟩ := exists_modularInverse (by decide) hg13
  refine ⟨crt26 u v, ?_, ?_⟩
  · have hinv2 : (2 : Int) ∣ determinant K * u - 1 := ((modularInverse_eq_some_iff _ (by decide) u).mp hu).2
    have hinv13 : (13 : Int) ∣ determinant K * v - 1 := ((modularInverse_eq_some_iff _ (by decide) v).mp hv).2
    have hmod2 := (crt26_modEq_two u v).mul_left (determinant K)
    have hmod13 := (crt26_modEq_thirteen u v).mul_left (determinant K)
    simp only [Int.ModEq] at hmod2 hmod13
    omega
  · simp only [invert26, if_neg h2, if_neg h13, modularInverse_positiveMod, hu, hv, scaleMod, reduceMod,
      Mat3.zipWith, Mat3.map, crt26_scaled]

/-- The inverter's three outcomes exclude one another and leave no fourth (R77-R79). -/
theorem invert26_cases (K : Mat3 Int) :
    (determinant K % 2 = 0 ∧ invert26 K = .error .noninvMod2) ∨
    (determinant K % 2 ≠ 0 ∧ determinant K % 13 = 0 ∧ invert26 K = .error .noninvMod13) ∨
    (Int.gcd (determinant K) 26 = 1 ∧ ∃ e : Int, (26 : Int) ∣ determinant K * e - 1 ∧
      invert26 K = .ok (scaleMod (adjugate K) e 26)) := by
  by_cases h2 : determinant K % 2 = 0
  · exact .inl ⟨h2, invert26_of_even h2⟩
  by_cases h13 : determinant K % 13 = 0
  · exact .inr (.inl ⟨h2, h13, invert26_of_odd_multiple h2 h13⟩)
  · have hd : Int.gcd (determinant K) 26 = 1 := (gcd_twentySix_eq_one_iff _).mpr
      ⟨(gcd_eq_one_iff_emod_ne_zero _ Nat.prime_two).mpr h2, (gcd_eq_one_iff_emod_ne_zero _ (by decide)).mpr h13⟩
    exact .inr (.inr ⟨hd, invert26_of_unit hd⟩)

/-- The inverter gives a matrix for units alone. -/
theorem gcd_eq_one_of_invert26_ok {K R : Mat3 Int} (h : invert26 K = .ok R) :
    Int.gcd (determinant K) 26 = 1 := by
  obtain ⟨-, herr⟩ | ⟨-, -, herr⟩ | ⟨hd, -⟩ := invert26_cases K
  · cases herr.symm.trans h
  · cases herr.symm.trans h
  · exact hd

/-! ## Matrices modulo m -/

/-- A matrix of integers read modulo `m`, in the ring where the inverses of R79 are the library's. -/
def matrixMod (m : Nat) : Matrix (Fin 3) (Fin 3) Int →+* Matrix (Fin 3) (Fin 3) (ZMod m) :=
  (Int.castRingHom (ZMod m)).mapMatrix

theorem matrixMod_apply (m : Nat) (X : Matrix (Fin 3) (Fin 3) Int) (r c : Fin 3) :
    matrixMod m X r c = (X r c : ZMod m) := rfl

theorem matrixMod_eq_iff {m : Nat} {X Y : Matrix (Fin 3) (Fin 3) Int} :
    matrixMod m X = matrixMod m Y ↔ ∀ r c, (m : Int) ∣ (X - Y) r c := by
  rw [← Matrix.ext_iff]
  simp only [matrixMod_apply, Matrix.sub_apply]
  exact forall₂_congr fun r c => eq_comm.trans (ZMod.intCast_eq_intCast_iff_dvd_sub _ _ m)

/-- Being inverse modulo `m`, by elements and in the ring of residues. -/
theorem matrixMod_mul_eq_one_iff {m : Nat} {X Y : Matrix (Fin 3) (Fin 3) Int} :
    matrixMod m X * matrixMod m Y = 1 ↔ ∀ r c, (m : Int) ∣ (X * Y - 1) r c := by
  rw [← map_mul, ← map_one (matrixMod m), matrixMod_eq_iff]

theorem matrixMod_scaleMod (X : Mat3 Int) (s : Int) (m : Nat) :
    matrixMod m (intMatrixOf (scaleMod X s m)) = matrixMod m (s • intMatrixOf X) := by
  rw [matrixMod_eq_iff]
  intro r c
  have hentry : intMatrixOf (scaleMod X s m) r c = positiveMod (s * intMatrixOf X r c) m := by
    rw [mul_comm]
    exact Mat3.entry_map _ X r c
  rw [Matrix.sub_apply, hentry]
  exact (Int.mod_modEq _ _).symm.dvd

/-- The adjugate times an inverse of the determinant inverts the matrix (R62, R63). -/
theorem matrixMod_mul_scaleMod_adjugate {K : Mat3 Int} {e : Int} {m : Nat} (he : (m : Int) ∣ determinant K * e - 1) :
    matrixMod m (intMatrixOf K) * matrixMod m (intMatrixOf (scaleMod (adjugate K) e m)) = 1 := by
  have hproduct : intMatrixOf K * (e • intMatrixOf (adjugate K)) = (determinant K * e) • 1 := by
    rw [Matrix.mul_smul, intMatrixOf_adjugate, Matrix.mul_adjugate, smul_smul, ← determinant_eq_det, mul_comm]
  rw [matrixMod_scaleMod, ← map_mul, hproduct, ← map_one (matrixMod m), matrixMod_eq_iff]
  intro r c
  have hfactor : ((determinant K * e) • 1 - 1 : Matrix (Fin 3) (Fin 3) Int) = (determinant K * e - 1) • 1 := by
    rw [sub_smul, one_smul]
  rw [hfactor]
  exact he.mul_right _

theorem entry_scaleMod_range (X : Mat3 Int) (s : Int) {m : Nat} (hm : 1 ≤ m) (r c : Fin 3) :
    0 ≤ (scaleMod X s m).entry r c ∧ (scaleMod X s m).entry r c < m := by
  rw [scaleMod, Mat3.entry_map]
  obtain ⟨h0, hlt, -⟩ := positiveMod_spec (X.entry r c * s) hm
  exact ⟨h0, hlt⟩

/-- Matrices with elements in [0, m) are told apart modulo m. -/
theorem eq_of_matrixMod_eq {m : Nat} {X Y : Mat3 Int} (hX : ∀ r c, 0 ≤ X.entry r c ∧ X.entry r c < m)
    (hY : ∀ r c, 0 ≤ Y.entry r c ∧ Y.entry r c < m)
    (h : matrixMod m (intMatrixOf X) = matrixMod m (intMatrixOf Y)) : X = Y := by
  refine Mat3.ext_entry fun r c => ?_
  obtain ⟨hX0, hXm⟩ := hX r c
  obtain ⟨hY0, hYm⟩ := hY r c
  have hmod : Y.entry r c ≡ X.entry r c [ZMOD m] := Int.modEq_iff_dvd.mpr (matrixMod_eq_iff.mp h r c)
  rw [← Int.emod_eq_of_lt hX0 hXm, ← Int.emod_eq_of_lt hY0 hYm]
  exact hmod.symm

/-- What the inverter returns has elements in [0, 26) and inverts K mod 26 (R79). -/
theorem invert26_ok_spec {K R : Mat3 Int} (h : invert26 K = .ok R) :
    (∀ r c, 0 ≤ R.entry r c ∧ R.entry r c < 26) ∧
      matrixMod 26 (intMatrixOf K) * matrixMod 26 (intMatrixOf R) = 1 := by
  obtain ⟨e, he, hok⟩ := invert26_of_unit (gcd_eq_one_of_invert26_ok h)
  obtain rfl : R = scaleMod (adjugate K) e 26 := Except.ok.inj (h.symm.trans hok)
  exact ⟨entry_scaleMod_range _ _ (by decide), matrixMod_mul_scaleMod_adjugate he⟩

/-! ## CRT and INV26 -/

/-- MAT_R holds elements in [0, 26) as they are (R24). -/
theorem toNat_entry_resultMatrix {X : Mat3 Int} {r c : Fin 3} (h : 0 ≤ X.entry r c ∧ X.entry r c < 26) :
    (((resultMatrix X).entry r c).toNat : Int) = X.entry r c := by
  obtain ⟨h0, hlt⟩ := h
  rw [resultMatrix, Mat3.entry_map, resElem_toNat h0 (by omega), Int.toNat_of_nonneg h0]

theorem resultMatrixOf_resultMatrix {X : Mat3 Int} (h : ∀ r c, 0 ≤ X.entry r c ∧ X.entry r c < 26) :
    resultMatrixOf (resultMatrix X) = intMatrixOf X := by
  ext r c
  exact toNat_entry_resultMatrix (h r c)

theorem entry_resultMatrix_lt {X : Mat3 Int} (h : ∀ r c, 0 ≤ X.entry r c ∧ X.entry r c < 26) (r c : Fin 3) :
    ((resultMatrix X).entry r c).toNat < 26 := by
  have heq := toNat_entry_resultMatrix (h r c)
  have hlt := (h r c).2
  omega

/-- The recombined matrix goes to MAT_R and nowhere else (R75). -/
theorem exec_crt (s : State) :
    exec .crt s = .next (completed s { s.block with
      matR := resultMatrix (Mat3.zipWith crt26 s.block.latch.matA.toInts s.block.latch.matB.toInts) } .ok) :=
  exec_eq .crt s

/-- The inverse goes to MAT_R and nowhere else (R80). -/
theorem exec_inv26_of_ok {s : State} {R : Mat3 Int} (h : invert26 s.block.latch.matA.toInts = .ok R) :
    exec .inv26 s = .next (completed s { s.block with matR := resultMatrix R } .ok) := by
  rw [← Latch.intsA] at h
  simp only [exec_eq, commandResult, inv26Result, h]
  rfl

/-- Without an inverse no result register is written (R80, R85). -/
theorem exec_inv26_of_error {s : State} {rc : ResultCode} (h : invert26 s.block.latch.matA.toInts = .error rc) :
    exec .inv26 s = .next (completed s s.block rc) := by
  rw [← Latch.intsA] at h
  simp only [exec_eq, commandResult, inv26Result, h, State.complete_failed]

/-! ## The obligations -/

/-- Settles O25: two residues and the range [0, 26) pin the value of `crt26`. -/
theorem crtValueIsUnique : Obligations.CrtValueIsUnique := by
  refine ⟨fun a b => ⟨?_, rfl⟩, fun r2 r13 h2 h2' h13 h13' => ?_⟩
  · rw [eq_crt26_iff, Int.emod_emod, Int.emod_emod]
    exact eq_crt26_iff.mp rfl
  · have e2 : r2 % 2 = r2 := Int.emod_eq_of_lt h2 h2'
    have e13 : r13 % 13 = r13 := Int.emod_eq_of_lt h13 h13'
    obtain ⟨⟨h0, hlt⟩, hmod2, hmod13⟩ := eq_crt26_iff.mp (Eq.refl (crt26 r2 r13))
    refine ⟨h0, hlt, hmod2.trans e2, hmod13.trans e13, fun x hx0 hx hx2 hx13 => ?_⟩
    exact eq_crt26_iff.mpr ⟨⟨hx0, hx⟩, hx2.trans e2.symm, hx13.trans e13.symm⟩

/-- Settles O26: the three outcomes of the inverter leave no place for MODINV_ABSENT. -/
theorem inverterReportsModulusTwoFirst : Obligations.InverterReportsModulusTwoFirst := by
  refine fun K => ⟨invert26_of_even, invert26_of_odd_multiple, fun habsent => ?_⟩
  obtain ⟨-, h⟩ | ⟨-, -, h⟩ | ⟨-, e, -, h⟩ := invert26_cases K <;> cases h.symm.trans habsent

/-- Settles O27: modulo 26 the returned matrix is a one-sided inverse in the ring of square matrices, so the inverse
on both sides and the only one. -/
theorem inverterReturnsTheUniqueInverse : Obligations.InverterReturnsTheUniqueInverse := by
  refine fun K => ⟨⟨fun ⟨_, h⟩ => gcd_eq_one_of_invert26_ok h, fun hd => ?_⟩, fun R h => ?_⟩
  · obtain ⟨e, -, hok⟩ := invert26_of_unit hd
    exact ⟨_, hok⟩
  · obtain ⟨hrange, hright⟩ := invert26_ok_spec h
    have hleft := mul_eq_one_comm.mp hright
    refine ⟨hrange, matrixMod_mul_eq_one_iff.mp hright, matrixMod_mul_eq_one_iff.mp hleft, fun R' hrange' h' => ?_⟩
    exact eq_of_matrixMod_eq hrange' hrange (left_inv_eq_right_inv hleft (matrixMod_mul_eq_one_iff.mpr h')).symm

/-- Settles O19: each element of MAT_R is the value of `crt26`, which 8 bits hold. -/
theorem crtWritesRecombinedMatrix : Obligations.CrtWritesRecombinedMatrix := by
  refine ⟨fun s => ⟨_, fun r c => ?_, exec_crt s⟩, rfl, rfl, reservedBitsRefused _,
    modulusBitsRefused_of_fixed (by decide)⟩
  have hrange := entry_zipWith_crt26_range s.block.latch.matA.toInts s.block.latch.matB.toInts
  refine ⟨entry_resultMatrix_lt hrange r c, ?_⟩
  rw [resultMatrixOf_resultMatrix hrange, ← intMatrixOf_toInts, ← intMatrixOf_toInts]
  simp only [intMatrixOf, Matrix.of_apply, Mat3.entry_zipWith]
  exact ⟨(crt26_modEq_two _ _).dvd, (crt26_modEq_thirteen _ _).dvd⟩

/-- Settles O21: INV26 answers as the inverter does of the matrix in MAT_A, and MAT_R holds the inverse as it is. -/
theorem inv26WritesInverseOrCode : Obligations.Inv26WritesInverseOrCode := by
  refine ⟨fun s => ?_, rfl, rfl, reservedBitsRefused _, modulusBitsRefused_of_fixed (by decide)⟩
  rw [← intMatrixOf_toInts, ← determinant_eq_det]
  refine ⟨fun hd => ?_, fun h2 => ?_, fun h2 h13 => ?_⟩
  · obtain ⟨e, -, hok⟩ := invert26_of_unit hd
    obtain ⟨hrange, hinv⟩ := invert26_ok_spec hok
    refine ⟨_, entry_resultMatrix_lt hrange, ?_, exec_inv26_of_ok hok⟩
    rw [resultMatrixOf_resultMatrix hrange]
    exact matrixMod_mul_eq_one_iff.mp hinv
  · exact exec_inv26_of_error (invert26_of_even (Int.emod_eq_zero_of_dvd h2))
  · rw [Int.dvd_iff_emod_eq_zero] at h2 h13
    exact exec_inv26_of_error (invert26_of_odd_multiple h2 h13)

end Machine
end Sys2Proof
end

section
/-! Proofs about the life of a command: acceptance, overrun, and when DONE and OVR are set and cleared
(60_exceptions.md R81, R82, R89, R90). -/

namespace Sys2Proof.Machine

open Sys2Proof.Safety

/-! ## A CMD write while busy, and what a write leaves in DONE and OVR -/

theorem Block.presentCommand_busy {b : Block} (h : b.latch.valid = true) (w : Word) :
    b.presentCommand w = { b with ovr := true } := by
  simp [Block.presentCommand, Block.busy, Block.dropCommand, h]

theorem Block.writeReg_done (b : Block) (r : Reg) (v : Word) : (b.writeReg r v).done =
    if r = .status then b.done && !v.getLsbD 1 else if r = .cmd then b.done && b.latch.valid else b.done := by
  cases r with
  | cmd =>
    obtain ⟨hv, heq⟩ | ⟨hv, heq⟩ := b.presentCommand_cases v <;> simp [Block.writeReg, heq, hv]
  | _ => rfl

theorem Block.writeReg_ovr (b : Block) (r : Reg) (v : Word) : (b.writeReg r v).ovr =
    if r = .status then b.ovr && !v.getLsbD 2 else if r = .cmd then b.ovr || b.latch.valid else b.ovr := by
  cases r with
  | cmd =>
    obtain ⟨hv, heq⟩ | ⟨hv, heq⟩ := b.presentCommand_cases v <;> simp [Block.writeReg, heq, hv]
  | _ => rfl

/-! ## What the coming step is -/

theorem Reg.addr_inj {r q : Reg} : r.addr = q.addr ↔ r = q := by
  refine ⟨fun h => ?_, congrArg Reg.addr⟩
  rw [← Option.some_inj, ← Reg.ofAddr_addr r, h, Reg.ofAddr_addr]

/-- The host's coming access is one: the write at the head of its list. -/
theorem hostNext_write_iff {s : State} {r q : Reg} {v w : Word} {ops ops' : List HostOp}
    (h : HostNext s (.write r.addr v 0b1111#4) ops) :
    HostNext s (.write q.addr w 0b1111#4) ops' ↔ r = q ∧ v = w ∧ ops = ops' := by
  obtain ⟨hturn, hhost⟩ := h
  simp [HostNext, hturn, hhost, Reg.addr_inj, and_assoc]

/-- `step_cases` with cases that exclude one another: the block stays as it is only when none of the other three
is next. -/
theorem step_cases_exclusive {s t : State} (h : step s = .next t) :
    (nextTurn s = .reset ∧ t.block = Block.reset) ∨
    (CompletesNext s ∧ t.block = s.block.complete (latchResult s.block.latch)) ∨
    (∃ (r : Reg) (v : Word) (ops : List HostOp), HostNext s (.write r.addr v 0b1111#4) ops ∧
      t.block = s.block.writeReg r v) ∨
    (nextTurn s ≠ .reset ∧ ¬ CompletesNext s ∧
      (∀ (r : Reg) (v : Word) (ops : List HostOp), ¬ HostNext s (.write r.addr v 0b1111#4) ops) ∧
      t.block = s.block) := by
  by_cases hreset : nextTurn s = .reset
  · cases (step_of_reset hreset).symm.trans h
    exact .inl ⟨hreset, rfl⟩
  by_cases hcore : CompletesNext s
  · cases (step_of_completion hcore).symm.trans h
    exact .inr (.inl ⟨hcore, rfl⟩)
  by_cases hwrite : ∃ (r : Reg) (v : Word) (ops : List HostOp), HostNext s (.write r.addr v 0b1111#4) ops
  · obtain ⟨r, v, ops, hnext⟩ := hwrite
    cases (step_of_host_write hnext).symm.trans h
    exact .inr (.inr (.inl ⟨r, v, ops, hnext, rfl⟩))
  simp only [not_exists] at hwrite
  obtain ⟨hn, -⟩ | ⟨hn, hv, -⟩ | ⟨r, v, ops, hn, hs, -⟩ | heq := step_cases s t h
  · exact absurd hn hreset
  · exact absurd ⟨hn, hv⟩ hcore
  · exact absurd ⟨hn, hs⟩ (hwrite r v ops)
  · exact .inr (.inr (.inr ⟨hreset, hcore, hwrite, heq⟩))

/-! ## DONE and OVR after a step -/

/-- The coming step is one of the three that clear DONE: reset, a STATUS write with bit 1, an acceptance (R89). -/
def ClearsDone (s : State) : Prop :=
  nextTurn s = .reset ∨
    (∃ v ops, HostNext s (.write Reg.status.addr v 0b1111#4) ops ∧ v.getLsbD 1 = true) ∨
    (s.block.latch.valid = false ∧ ∃ w ops, HostNext s (.write Reg.cmd.addr w 0b1111#4) ops)

/-- The coming step drops a command: a CMD write while BUSY = 1 (R82). -/
def DropsCommand (s : State) : Prop :=
  s.block.latch.valid = true ∧ ∃ w ops, HostNext s (.write Reg.cmd.addr w 0b1111#4) ops

/-- The coming step is one of the two that clear OVR: reset, a STATUS write with bit 2 (R90). -/
def ClearsOvr (s : State) : Prop :=
  nextTurn s = .reset ∨ ∃ v ops, HostNext s (.write Reg.status.addr v 0b1111#4) ops ∧ v.getLsbD 2 = true

theorem not_completesNext_of_clearsDone {s : State} (h : ClearsDone s) : ¬ CompletesNext s := by
  rintro ⟨hcore, -⟩
  obtain hn | ⟨v, ops, ⟨hn, -⟩, -⟩ | ⟨-, w, ops, hn, -⟩ := h <;> cases hn.symm.trans hcore

theorem not_dropsCommand_of_clearsOvr {s : State} (h : ClearsOvr s) : ¬ DropsCommand s := by
  rintro ⟨-, w, ops, hcmd⟩
  obtain hn | ⟨v, ops', hstatus, -⟩ := h
  · cases hn.symm.trans hcmd.1
  · cases ((hostNext_write_iff hstatus).mp hcmd).1

/-- DONE is 1 after a step exactly when the step completes a command, or keeps a DONE that was 1 (R89). -/
theorem step_done_iff {s t : State} (h : step s = .next t) :
    t.block.done = true ↔ CompletesNext s ∨ (s.block.done = true ∧ ¬ ClearsDone s) := by
  obtain ⟨hn, heq⟩ | ⟨hc, heq⟩ | ⟨r, v, ops, hw, heq⟩ | ⟨hreset, hcore, hwrite, heq⟩ := step_cases_exclusive h
  · simp [heq, Block.reset, CompletesNext, ClearsDone, hn]
  · exact iff_of_true (heq ▸ Block.complete_done _ _) (.inl hc)
  · rw [heq, Block.writeReg_done]
    simp only [CompletesNext, ClearsDone, hostNext_write_iff hw, hw.1]
    by_cases hstatus : r = .status
    · simp [hstatus]
    by_cases hcmd : r = .cmd
    · simp [hcmd]
    · simp [hstatus, hcmd]
  · simp [heq, ClearsDone, hreset, hcore, hwrite]

/-- OVR is 1 after a step exactly when the step drops a command, or keeps an OVR that was 1 (R90). -/
theorem step_ovr_iff {s t : State} (h : step s = .next t) :
    t.block.ovr = true ↔ DropsCommand s ∨ (s.block.ovr = true ∧ ¬ ClearsOvr s) := by
  obtain ⟨hn, heq⟩ | ⟨⟨hn, -⟩, heq⟩ | ⟨r, v, ops, hw, heq⟩ | ⟨hreset, -, hwrite, heq⟩ := step_cases_exclusive h
  · simp [heq, Block.reset, DropsCommand, ClearsOvr, HostNext, hn]
  · simp [heq, DropsCommand, ClearsOvr, HostNext, hn]
  · rw [heq, Block.writeReg_ovr]
    simp only [DropsCommand, ClearsOvr, hostNext_write_iff hw, hw.1]
    by_cases hstatus : r = .status
    · simp [hstatus]
    by_cases hcmd : r = .cmd
    · simp [hcmd, or_comm]
    · simp [hstatus, hcmd]
  · simp [heq, DropsCommand, ClearsOvr, hreset, hwrite]

/-- A STATUS write, whatever it clears, and then the completion of the command in flight: DONE is 1 (R89). -/
theorem done_of_status_write_then_completion {s : State} {v : Word} {ops : List HostOp} {ts : List Turn}
    (hturns : s.turns = .host :: .core :: ts) (hhost : s.host = .write Reg.status.addr v 0b1111#4 :: ops)
    (hbusy : s.block.latch.valid = true) :
    ∃ t, Host.Core.run Sys2Proof.core 2 s = .next t ∧ t.block.done = true := by
  have hnext : HostNext s (.write Reg.status.addr v 0b1111#4) ops := ⟨by simp [nextTurn, hturns], hhost⟩
  refine ⟨_, (run_succ 1 (step_of_host_write hnext)).trans (run_succ 0 (step_of_completion ⟨?_, hbusy⟩)), rfl⟩
  simp [nextTurn, hturns]

/-! ## The obligations -/

/-- Settles O8: the write rule of CMD while idle is acceptance. -/
theorem idleCommandWriteIsAccepted : Obligations.IdleCommandWriteIsAccepted := by
  intro s w ops h hidle
  rw [step_of_host_write (r := .cmd) h, Block.writeReg, Block.presentCommand_idle hidle]
  rfl

/-- Settles O9: the write rule of CMD while busy is overrun. -/
theorem busyCommandWriteSetsOverrunOnly : Obligations.BusyCommandWriteSetsOverrunOnly := by
  intro s w ops h hbusy
  rw [step_of_host_write (r := .cmd) h, Block.writeReg, Block.presentCommand_busy hbusy]

/-- Settles O46: the clauses about one step read off what DONE is after it, a clearing step being no completion. -/
theorem doneIsSetByCompletionAlone : Obligations.DoneIsSetByCompletionAlone := by
  refine ⟨fun s t hc h => (step_done_iff h).mpr (.inl hc), fun s t h hs ht => ?_, fun s t h hclear => ?_,
    fun s t h hs ht => ?_, fun s v ops ts => done_of_status_write_then_completion⟩
  · obtain hc | ⟨hdone, -⟩ := (step_done_iff h).mp ht
    · exact hc
    · cases hs.symm.trans hdone
  · rw [← Bool.not_eq_true, step_done_iff h]
    rintro (hc | ⟨-, hkept⟩)
    · exact not_completesNext_of_clearsDone hclear hc
    · exact hkept hclear
  · by_contra hkept
    cases ht.symm.trans ((step_done_iff h).mpr (.inr ⟨hs, hkept⟩))

/-- Settles O47: both equivalences read off what OVR is after a step, a clearing step dropping no command. -/
theorem overrunIsSticky : Obligations.OverrunIsSticky := by
  refine ⟨fun s t h hs => ?_, fun s t h hs => ?_⟩
  · rw [step_ovr_iff h]
    simp only [hs, Bool.false_eq_true, false_and, or_false]
    rfl
  · rw [← Bool.not_eq_true, step_ovr_iff h]
    constructor
    · intro hcleared
      by_contra hkept
      exact hcleared (.inr ⟨hs, hkept⟩)
    · rintro hclear (hdrop | ⟨-, hkept⟩)
      · exact not_dropsCommand_of_clearsOvr hclear hdrop
      · exact hkept hclear

end Sys2Proof.Machine
end

section
/-! Proofs about the encoding: the words that decode, their one spelling, and the rows of the opcode table
(30_encoding.md R46-R55). -/

namespace Sys2Proof

/-! ## Words by their fields -/

/-- Words with the same three fields are the same (R46). -/
theorem word_eq_iff_fields {v w : Word} : v = w ↔
    opcodeField v = opcodeField w ∧ modulusField v = modulusField w ∧ reservedField v = reservedField w := by
  constructor
  · rintro rfl
    exact ⟨rfl, rfl, rfl⟩
  · rintro ⟨hop, hm, hrsv⟩
    rw [← word_of_fields v, hop, hm, hrsv, word_of_fields]

theorem opcodeField_and (v w : Word) : opcodeField (v &&& w) = opcodeField v &&& opcodeField w :=
  BitVec.extractLsb'_and

theorem modulusField_and (v w : Word) : modulusField (v &&& w) = modulusField v &&& modulusField w :=
  BitVec.extractLsb'_and

theorem reservedField_and (v w : Word) : reservedField (v &&& w) = reservedField v &&& reservedField w :=
  BitVec.extractLsb'_and

/-! ## The words that decode -/

/-- The opcode map inverts `Instr.opcode` (R48). -/
theorem opcodeMap_eq_some_iff {op : BitVec 8} {m : Nat} {i : Instr} :
    opcodeMap op.toNat m = some i ↔ op = i.opcode ∧ (i.modulus? = none ∨ i.modulus? = some m) := by
  constructor
  · intro h
    obtain ⟨h1, h9⟩ := opcode_range_of_opcodeMap h
    rw [BitVec.toNat_eq]
    generalize op.toNat = n at *
    interval_cases n <;> cases h <;> simp [Instr.opcode, Instr.modulus?]
  · rintro ⟨rfl, h⟩
    cases i <;> simp_all [Instr.opcode, Instr.modulus?, opcodeMap]

/-- A word that decodes passed checks 1 to 3 (R53). -/
theorem opcodeMap_of_decode_ok {w : Word} {i : Instr} (h : decode w = .ok i) :
    opcodeMap (opcodeField w).toNat (modulusField w).toNat = some i ∧ reservedField w = 0 ∧
      (i.modulus? = none → modulusField w = 0) := by
  unfold decode at h
  split at h
  · cases h
  · rename_i j hmap
    split_ifs at h with hrsv hm
    cases h
    exact ⟨hmap, not_not.mp hrsv, fun hnone => not_not.mp fun hne => hm ⟨hnone, hne⟩⟩

/-- The fields of a word that decodes to a command: its OPCODE, RSV = 0, and in M its modulus, or 0 where it has none
(R46, R50, R51). -/
theorem fields_of_decode_ok {w : Word} {i : Instr} (h : decode w = .ok i) :
    opcodeField w = i.opcode ∧ reservedField w = 0 ∧ (modulusField w).toNat = i.modulus?.getD 0 := by
  obtain ⟨hmap, hrsv, hfixed⟩ := opcodeMap_of_decode_ok h
  obtain ⟨hop, hnone | hsome⟩ := opcodeMap_eq_some_iff.mp hmap
  · exact ⟨hop, hrsv, by simp [hfixed hnone, hnone]⟩
  · exact ⟨hop, hrsv, by simp [hsome]⟩

theorem wellFormed_of_decode_ok {w : Word} {i : Instr} (h : decode w = .ok i) : i.wellFormed = true := by
  obtain ⟨-, -, hm⟩ := fields_of_decode_ok h
  unfold Instr.wellFormed
  cases hmod : i.modulus? with
  | none => rfl
  | some m =>
    rw [hmod, Option.getD_some] at hm
    exact decide_eq_true (hm ▸ (modulusField w).isLt)

/-- The word of a command has the fields of any word that decodes to it (R54). -/
theorem encode_of_decode_ok {w : Word} {i : Instr} (h : decode w = .ok i) : encode i = w := by
  obtain ⟨hop, hrsv, hm⟩ := fields_of_decode_ok h
  rw [encode, word_eq_iff_fields, opcodeField_commandWord, modulusField_commandWord, reservedField_commandWord,
    hop, hrsv, ← hm, BitVec.ofNat_toNat, BitVec.setWidth_eq]
  exact ⟨rfl, rfl, rfl⟩

/-! ## The opcode table -/

/-- The row of the opcode table for a command: its OPCODE, and every bit but those of an M that holds a modulus
(R48). -/
def tableRow (i : Instr) : OpcodeRow :=
  { mnemonic := i.mnemonic
    value := commandWord i.opcode 0
    mask := if i.modulus? = none then 0xFFFFFFFF else 0xFFFF00FF }

theorem mem_opcodeTable_iff {r : OpcodeRow} : r ∈ opcodeTable ↔ ∃ i, r = tableRow i := by
  constructor
  · intro h
    simp only [opcodeTable, List.mem_cons, List.not_mem_nil, or_false] at h
    obtain h | h | h | h | h | h | h | h | h := h
    exacts [⟨.pmod 0, h⟩, ⟨.modinv 0, h⟩, ⟨.detm 0, h⟩, ⟨.adjm 0, h⟩, ⟨.redm 0, h⟩, ⟨.scalem 0, h⟩, ⟨.crt, h⟩,
      ⟨.matvec, h⟩, ⟨.inv26, h⟩]
  · rintro ⟨i, rfl⟩
    cases i <;> simp [tableRow, opcodeTable, Instr.mnemonic, Instr.opcode, Instr.modulus?, commandWord]

/-- What a row's match and mask say of the fields of a word. -/
theorem tableRow_covers_iff {w : Word} {i : Instr} : w &&& (tableRow i).mask = (tableRow i).value ↔
    opcodeField w = i.opcode ∧ reservedField w = 0 ∧ (i.modulus? = none → modulusField w = 0) := by
  have hall8 : ∀ x : BitVec 8, x &&& 255#8 = x := fun _ => BitVec.and_allOnes
  have hall16 : ∀ x : BitVec 16, x &&& 65535#16 = x := fun _ => BitVec.and_allOnes
  have hplain : opcodeField 0xFFFFFFFF#32 = 255#8 ∧ modulusField 0xFFFFFFFF#32 = 255#8 ∧
      reservedField 0xFFFFFFFF#32 = 65535#16 := by decide
  have hmodulus : opcodeField 0xFFFF00FF#32 = 255#8 ∧ modulusField 0xFFFF00FF#32 = 0#8 ∧
      reservedField 0xFFFF00FF#32 = 65535#16 := by decide
  rw [word_eq_iff_fields, opcodeField_and, modulusField_and, reservedField_and, tableRow, opcodeField_commandWord,
    modulusField_commandWord, reservedField_commandWord]
  by_cases hnone : i.modulus? = none
  · simp [hnone, hplain, hall8, hall16, and_comm]
  · simp [hnone, hmodulus, hall8, hall16]

/-- The opcodes of the commands without a modulus are those from 0x07 (R47, R48). -/
theorem modulus?_eq_none_iff_opcode (i : Instr) : i.modulus? = none ↔ 7 ≤ i.opcode.toNat := by
  cases i <;> simp [Instr.modulus?, Instr.opcode]

theorem opcode_range (i : Instr) : 1 ≤ i.opcode.toNat ∧ i.opcode.toNat ≤ 9 := by
  cases i <;> simp [Instr.opcode]

/-- A mnemonic names one opcode (R48). -/
theorem mnemonic_eq_iff_opcode_eq {i j : Instr} : j.mnemonic = i.mnemonic ↔ j.opcode = i.opcode := by
  cases i <;> cases j <;> simp [Instr.mnemonic, Instr.opcode]

/-- A word that a row covers passes checks 1 to 3 (R53). -/
theorem exists_decode_ok_of_covers {w : Word} {i : Instr} (h : w &&& (tableRow i).mask = (tableRow i).value) :
    ∃ j, decode w = .ok j := by
  obtain ⟨hop, hrsv, hm⟩ := tableRow_covers_iff.mp h
  obtain ⟨j, hj⟩ := Option.isSome_iff_exists.mp
    ((opcodeMap_isSome (opcodeField w).toNat (modulusField w).toNat).mpr (hop ▸ opcode_range i))
  exact ⟨j, decode_of_opcodeMap hj hrsv fun h7 => hm ((modulus?_eq_none_iff_opcode i).mpr (hop ▸ h7))⟩

/-- The rows that cover the word of a command are those with its opcode. -/
theorem tableRow_covers_iff_of_decode_ok {w : Word} {i j : Instr} (h : decode w = .ok i) :
    w &&& (tableRow j).mask = (tableRow j).value ↔ j.opcode = i.opcode := by
  obtain ⟨-, hrsv, hfixed⟩ := opcodeMap_of_decode_ok h
  rw [tableRow_covers_iff, (fields_of_decode_ok h).1]
  constructor
  · rintro ⟨hop, -⟩
    exact hop.symm
  · intro hop
    refine ⟨hop.symm, hrsv, fun hnone => hfixed ?_⟩
    rwa [modulus?_eq_none_iff_opcode, ← hop, ← modulus?_eq_none_iff_opcode]

/-! ## The word as a number -/

/-- OPCODE lies below the bits of m. -/
theorem encode_eq_or {i : Instr} {m : Nat} (h : i.modulus? = some m) (hm : m < 256) :
    encode i = i.opcode.setWidth 32 ||| (BitVec.ofNat 32 m <<< 8) := by
  have hop : i.opcode.toNat < 2 ^ 8 := i.opcode.isLt
  have hor := Nat.shiftLeft_add_eq_or_of_lt hop m
  rw [Machine.encode_eq_ofNat h hm, BitVec.or_comm]
  apply BitVec.eq_of_toNat_eq
  rw [BitVec.toNat_or, BitVec.toNat_shiftLeft, BitVec.toNat_setWidth, BitVec.toNat_ofNat, BitVec.toNat_ofNat,
    Nat.mod_eq_of_lt (a := m) (by omega), Nat.mod_eq_of_lt (a := i.opcode.toNat) (by omega),
    Nat.mod_eq_of_lt (a := m <<< 8) (by omega), ← hor]
  omega

/-! ## The obligations -/

/-- Settles O1, by the round trip of each command. -/
theorem decodeOfEncodeIsIdentity : Obligations.DecodeOfEncodeIsIdentity :=
  fun _ h => decode_encode h

/-- Settles O2: a word is its three fields, and the checks leave none of them free. -/
theorem encodeOfDecodeIsIdentity : Obligations.EncodeOfDecodeIsIdentity :=
  fun _ _ h => ⟨wellFormed_of_decode_ok h, encode_of_decode_ok h⟩

/-- Settles O4: a row fixes the opcode and the zeros that checks 1 to 3 ask for, and an opcode has one row. -/
theorem decodeAgreesWithOpcodeTable : Obligations.DecodeAgreesWithOpcodeTable := by
  refine fun w => ⟨⟨fun ⟨i, h⟩ => ?_, fun ⟨r, hr, hcovers⟩ => ?_⟩, fun i h r hr => ?_⟩
  · exact ⟨tableRow i, mem_opcodeTable_iff.mpr ⟨i, rfl⟩, (tableRow_covers_iff_of_decode_ok h).mpr rfl⟩
  · obtain ⟨i, rfl⟩ := mem_opcodeTable_iff.mp hr
    exact exists_decode_ok_of_covers hcovers
  · obtain ⟨j, rfl⟩ := mem_opcodeTable_iff.mp hr
    exact (tableRow_covers_iff_of_decode_ok h).trans mnemonic_eq_iff_opcode_eq.symm

/-- Settles O3: OPCODE lies below the 8 bits by which m is shifted, so or-ing the two is adding them. -/
theorem encodedWordIsOpcodeOrShiftedModulus : Obligations.EncodedWordIsOpcodeOrShiftedModulus := by
  intro m hm
  have hword : ∀ i : Instr, i.modulus? = some m →
      encode i = i.opcode.setWidth 32 ||| (BitVec.ofNat 32 m <<< 8) := fun i hi => encode_eq_or hi hm
  exact ⟨hword (.pmod m) rfl, hword (.modinv m) rfl, hword (.detm m) rfl, hword (.adjm m) rfl,
    hword (.redm m) rfl, hword (.scalem m) rfl, rfl, rfl, rfl⟩

/-- Settles O5: the decoder runs on each word. -/
theorem spelledWordsDecode : Obligations.SpelledWordsDecode := by
  unfold Obligations.SpelledWordsDecode
  decide

end Sys2Proof
end

section
/-! Proofs about the invariant of the block: what the results of a completion range over, and that every step keeps
the ranges and the facts about a command in flight (10_state.md R14, R16, R21-R26; 60_exceptions.md R89). -/

namespace Sys2Proof.Machine

open Sys2Proof.Safety

/-! ## The ranges of results -/

/-- What a completion may write to each result register (R21-R25); a register it leaves needs no proof. -/
structure WritesInRange (w : Writes) : Prop where
  scalar : ∀ v ∈ w.resScalar, v.toNat ≤ 254 := by simp
  gcd : ∀ v ∈ w.resGcd, v.toNat ≤ 255 := by simp
  det : ∀ D ∈ w.resDet, ∀ k : Fin 16, D.getLsbD (48 + k.val) = D.getLsbD 47 := by simp
  matrix : ∀ R ∈ w.matR, ∀ i : Fin 9, (R.get i).toNat ≤ 254 := by simp
  vector : ∀ V ∈ w.vecR, ∀ i : Fin 3, (V.get i).toNat ≤ 25 := by simp

theorem writesInRange_nothing : WritesInRange {} := {}

/-- A non-negative value that a 32-bit register holds keeps its bound. -/
theorem toNat_resultWord_le {r : Int} {n : Nat} (h0 : 0 ≤ r) (h : r ≤ n) : (resultWord r).toNat ≤ n := by
  rw [resultWord_eq h0, BitVec.toNat_ofNat]
  exact (Nat.mod_le _ _).trans (by omega)

theorem toNat_resultWord_positiveMod_le (a : Int) {m n : Nat} (hm : 1 ≤ m) (hn : m ≤ n + 1) :
    (resultWord (positiveMod a m)).toNat ≤ n := by
  obtain ⟨h0, hlt, -⟩ := positiveMod_spec a hm
  exact toNat_resultWord_le h0 (by omega)

/-- A residue modulo at most n + 1 is at most n, as an 8-bit element holds it. -/
theorem toNat_resElem_positiveMod_le (a : Int) {m n : Nat} (hm : 1 ≤ m) (hn : m ≤ n + 1) (h255 : n < 255) :
    (BitVec.ofInt 8 (positiveMod a m)).toNat ≤ n := by
  obtain ⟨hlt, -⟩ := isResidue_resElem a hm (by omega)
  omega

theorem residueGcd_le (a : Int) {m : Nat} (hm : 1 ≤ m) : residueGcd a m ≤ m :=
  Nat.gcd_le_right _ hm

/-- A matrix whose elements are residues modulo at most 255, written to MAT_R. -/
theorem writesInRange_residueMatrix {X : Mat3 Int} {m : Nat} (hm : 1 ≤ m) (hm' : m < 256)
    (h : ∀ i, ∃ a, X.get i = positiveMod a m) : WritesInRange { matR := some (resultMatrix X) } where
  matrix := by
    rintro _ ⟨⟩ i
    obtain ⟨a, ha⟩ := h i
    rw [resultMatrix, Mat3.get_map, ha]
    exact toNat_resElem_positiveMod_le a hm (by omega) (by decide)

theorem writesInRange_reduceMod (X : Mat3 Int) {m : Nat} (hm : 1 ≤ m) (hm' : m < 256) :
    WritesInRange { matR := some (resultMatrix (reduceMod X m)) } :=
  writesInRange_residueMatrix hm hm' fun i => ⟨_, Mat3.get_map _ X i⟩

theorem writesInRange_scaleMod (X : Mat3 Int) (s : Int) {m : Nat} (hm : 1 ≤ m) (hm' : m < 256) :
    WritesInRange { matR := some (resultMatrix (scaleMod X s m)) } :=
  writesInRange_residueMatrix hm hm' fun i => ⟨_, Mat3.get_map _ X i⟩

theorem writesInRange_crt26 (A B : Mat3 Int) :
    WritesInRange { matR := some (resultMatrix (Mat3.zipWith crt26 A B)) } :=
  writesInRange_residueMatrix (m := 26) (by decide) (by decide) fun i => ⟨_, Mat3.get_zipWith crt26 A B i⟩

theorem writesInRange_matVecMod (M : Mat3 Elem) (v : Vec3 Elem) :
    WritesInRange { vecR := some (resultVector (matVecMod M.toInts v.toInts 26)) } where
  vector := by
    rintro _ ⟨⟩ i
    rw [resultVector, Vec3.get_map, matVecMod_get]
    exact toNat_resElem_positiveMod_le _ (by decide) (by decide) (by decide)

/-- A command whose modulus is 0 writes nothing (R52). -/
theorem writesInRange_guardModulus {m : Nat} {c : Completion} (h : 1 ≤ m → WritesInRange c.writes) :
    WritesInRange (guardModulus m c).writes := by
  obtain rfl | hm := Nat.eq_zero_or_pos m
  · exact writesInRange_nothing
  · rw [guardModulus_pos hm]
    exact h hm

theorem writesInRange_modinvResult {m : Nat} (hm' : m < 256) (L : Latch) :
    WritesInRange (modinvResult m L).writes := by
  refine writesInRange_guardModulus fun hm => ?_
  have hgcd : (resultWord (residueGcd L.scalar m : Int)).toNat ≤ 255 := by
    have hle := residueGcd_le L.scalar hm
    exact toNat_resultWord_le (by omega) (by omega)
  cases hx : modularInverse L.scalar m with
  | none => exact { gcd := by rintro _ ⟨⟩; exact hgcd }
  | some x =>
    obtain ⟨hlt, -⟩ := (modularInverse_eq_some_iff _ hm x).mp hx
    exact
      { scalar := by rintro _ ⟨⟩; exact toNat_resultWord_le (by omega) (by omega)
        gcd := by rintro _ ⟨⟩; exact hgcd }

theorem writesInRange_detmResult {m : Nat} (hm' : m < 256) (L : Latch) : WritesInRange (detmResult m L).writes :=
  writesInRange_guardModulus fun hm =>
    { scalar := by rintro _ ⟨⟩; exact toNat_resultWord_positiveMod_le _ hm (by omega)
      det := by rintro _ ⟨⟩; exact determinantWord_sign_copies (abs_determinant_toInts_lt L.matA) }

theorem writesInRange_inv26Result (L : Latch) : WritesInRange (inv26Result L).writes := by
  unfold inv26Result
  cases h : invert26 L.intsA with
  | error rc => exact writesInRange_nothing
  | ok R =>
    obtain ⟨e, -, hok⟩ := invert26_of_unit (gcd_eq_one_of_invert26_ok h)
    cases h.symm.trans hok
    exact writesInRange_scaleMod _ e (by decide) (by decide)

/-- Every command that a word can hold writes values in the ranges of R21-R25. -/
theorem writesInRange_commandResult {i : Instr} (h : i.wellFormed = true) (L : Latch) :
    WritesInRange (commandResult i L).writes := by
  cases i with
  | pmod m =>
    exact writesInRange_guardModulus fun hm =>
      { scalar := by
          rintro _ ⟨⟩
          exact toNat_resultWord_positiveMod_le _ hm (Nat.le_of_lt_succ (of_decide_eq_true h)) }
  | modinv m => exact writesInRange_modinvResult (of_decide_eq_true h) L
  | detm m => exact writesInRange_detmResult (of_decide_eq_true h) L
  | adjm m => exact writesInRange_guardModulus fun hm => writesInRange_reduceMod _ hm (of_decide_eq_true h)
  | redm m => exact writesInRange_guardModulus fun hm => writesInRange_reduceMod _ hm (of_decide_eq_true h)
  | scalem m => exact writesInRange_guardModulus fun hm => writesInRange_scaleMod _ _ hm (of_decide_eq_true h)
  | crt => exact writesInRange_crt26 _ _
  | matvec => exact writesInRange_matVecMod _ _
  | inv26 => exact writesInRange_inv26Result L

theorem writesInRange_latchResult (L : Latch) : WritesInRange (latchResult L).writes := by
  unfold latchResult
  cases h : decode L.cmd with
  | error e => exact writesInRange_nothing
  | ok i => exact writesInRange_commandResult (wellFormed_of_decode_ok h) L

/-! ## The operations of the block -/

theorem blockInv_reset : BlockInv Block.reset where
  busy_rc := nofun
  busy_done := nofun
  busy_cmd := nofun
  last_op := rfl
  res_scalar := by decide
  res_gcd := by decide
  res_det := by decide
  mat_r := by decide
  vec_r := by decide

section
variable {b : Block} (h : BlockInv b)
include h

theorem blockInv_accept (w : Word) : BlockInv (b.accept w) :=
  { h with busy_rc := fun _ => rfl, busy_done := fun _ => rfl, busy_cmd := fun _ => rfl, last_op := rfl }

theorem blockInv_presentCommand (w : Word) : BlockInv (b.presentCommand w) := by
  obtain ⟨-, heq⟩ | ⟨-, heq⟩ := b.presentCommand_cases w
  · rw [heq]
    exact blockInv_accept h w
  · rw [heq]
    exact { h with }

/-- A completion keeps what it does not write, and writes in the ranges. -/
theorem blockInv_complete {c : Completion} (hw : WritesInRange c.writes) : BlockInv (b.complete c) where
  busy_rc := nofun
  busy_done := nofun
  busy_cmd := nofun
  last_op := h.last_op
  res_scalar := by
    rw [Block.complete_resScalar]
    cases hv : c.writes.resScalar with
    | none => exact h.res_scalar
    | some v => exact hw.scalar v hv
  res_gcd := by
    rw [Block.complete_resGcd]
    cases hv : c.writes.resGcd with
    | none => exact h.res_gcd
    | some v => exact hw.gcd v hv
  res_det := by
    rw [Block.resDet, Block.complete_resDetLo, Block.complete_resDetHi]
    cases hv : c.writes.resDet with
    | none => exact h.res_det
    | some D =>
      simp only [Option.map_some, Option.getD_some, highWord_append_lowWord]
      exact hw.det D hv
  mat_r := by
    rw [Block.complete_matR]
    cases hv : c.writes.matR with
    | none => exact h.mat_r
    | some R => exact hw.matrix R hv
  vec_r := by
    rw [Block.complete_vecR]
    cases hv : c.writes.vecR with
    | none => exact h.vec_r
    | some V => exact hw.vector V hv

/-- No write rule touches a result register, and the one that clears DONE keeps it 0. -/
theorem blockInv_writeReg (r : Reg) (v : Word) : BlockInv (b.writeReg r v) := by
  cases r with
  | cmd => exact blockInv_presentCommand h v
  | status =>
    refine { h with busy_done := fun hbusy => ?_ }
    rw [Block.writeReg, Block.writeStatus_done, h.busy_done hbusy, Bool.false_and]
  | _ => exact { h with }

end

/-! ## The obligations -/

/-- Settles O57: each of the four things a step can do to the block keeps the invariant. -/
theorem everyStepKeepsTheInvariant : Obligations.EveryStepKeepsTheInvariant := by
  intro s t h hstep
  obtain ⟨-, heq⟩ | ⟨-, -, heq⟩ | ⟨r, v, ops, -, -, heq⟩ | heq := step_cases s t hstep
  · exact heq ▸ blockInv_reset
  · exact heq ▸ blockInv_complete h (writesInRange_latchResult _)
  · exact heq ▸ blockInv_writeReg h r v
  · exact heq ▸ h

/-- Settles O58: after reset BUSY is 0 and so are all registers. -/
theorem resetHasTheInvariant : Obligations.ResetHasTheInvariant :=
  blockInv_reset

end Sys2Proof.Machine
end

section
/-! Proofs about the register port: the register map, what reads and writes of each kind of register do, and the bytes
of the window (10_state.md R11, R14-R25; 20_memory.md R37, R39; 70_reset_and_hazards.md R104). -/

namespace Sys2Proof.Machine

open Sys2Proof.Safety

/-! ## The register map -/

theorem Reg.offset_mod_four (r : Reg) : r.offset % 4 = 0 :=
  (Reg.exists_offset_iff.mp ⟨r, rfl⟩).1

/-! ## Writes -/

/-- Only a CMD write can change L (R16-R26). -/
theorem Block.writeReg_latch (b : Block) {r : Reg} (h : r ≠ .cmd) (v : Word) : (b.writeReg r v).latch = b.latch := by
  cases r with
  | cmd => exact absurd rfl h
  | _ => rfl

theorem Block.writeReg_result (b : Block) {r : Reg} (h : r.isResult = true) (v : Word) : b.writeReg r v = b := by
  cases r with
  | resScalar | resGcd | resDetLo | resDetHi | matR i | vecR i => rfl
  | _ => cases h

/-- The registers whose write rule can change the block: CMD, STATUS, CTRL, the operands (R39). -/
theorem Reg.writable_of_writeReg_ne {b : Block} {r : Reg} {v : Word} (h : b.writeReg r v ≠ b) :
    r = .cmd ∨ r = .status ∨ r = .ctrl ∨ r.isOperand = true := by
  obtain ⟨hr, -⟩ | ⟨hr, -⟩ | ⟨hr, -⟩ | ⟨hr, -⟩ | ⟨-, heq⟩ := b.writeReg_cases r v
  · exact .inr (.inr (.inr hr))
  · exact .inr (.inr (.inl hr))
  · exact .inr (.inl hr)
  · exact .inl hr
  · exact absurd heq h

/-- The offsets of the operand registers: OPA and the three arrays (R11). -/
theorem Reg.offset_of_isOperand {r : Reg} (h : r.isOperand = true) :
    r = .opa ∨ (0x040 ≤ r.offset ∧ r.offset ≤ 0x060) ∨ (0x080 ≤ r.offset ∧ r.offset ≤ 0x0A0) ∨
      (0x0C0 ≤ r.offset ∧ r.offset ≤ 0x0C8) := by
  cases r with
  | opa => exact .inl rfl
  | matA i | matB i | vec i => simp only [Reg.offset]; omega
  | _ => cases h

theorem ResultCode.toNat_code (rc : ResultCode) : rc.code.toNat =
    (match rc with
    | .ok => 0
    | .noninvMod2 => 1
    | .noninvMod13 => 2
    | .modinvAbsent => 3
    | .noInverse => 4
    | .illegalCommand => 5
    | .illegalOperand => 6) := by
  cases rc <;> rfl

/-! ## The waits -/

/-- One poll of `WAIT`: a read of STATUS, after which it leaves the list when the read returns BUSY = 0 (R56). -/
theorem step_of_waitNotBusy {s : State} {ops : List HostOp} (h : HostNext s .waitNotBusy ops) :
    step s = .next { s with
      host := if s.block.latch.valid then s.host else ops
      turns := s.turns.tail
      port := .readDone s.block.statusWord false } := by
  obtain ⟨hturn, hhost⟩ := h
  obtain ⟨hbusy, -⟩ := s.block.statusWord_fields
  simp only [step, hturn, takeTurn, hostTurn, hhost, hbusy, State.memRead_reg]
  cases s.block.latch.valid <;> simp [Reg.isResult, Block.readReg]

/-- One look at `irq`, which makes no access (R42). -/
theorem step_of_waitIrq {s : State} {ops : List HostOp} (h : HostNext s .waitIrq ops) :
    step s = .next { s with
      host := if s.block.ie && s.block.done then ops else s.host
      turns := s.turns.tail
      port := .idle } := by
  obtain ⟨hturn, hhost⟩ := h
  simp only [step, hturn, takeTurn, hostTurn, hhost, Block.irq]
  split <;> rfl

/-! ## The bytes of the window -/

theorem Block.wordAt_addr (b : Block) (r : Reg) : b.wordAt r.addr = b.readReg r := by
  rw [Block.wordAt, Reg.ofAddr_addr]

/-- Lane k of a register is the byte at `addr + k` (R37). -/
theorem Block.byteAt_offset_add (b : Block) (r : Reg) {k : Nat} (hk : k < 4) :
    b.byteAt (BitVec.ofNat 9 (r.offset + k)) = (b.readReg r).extractLsb' (8 * k) 8 := by
  have hmod := r.offset_mod_four
  have hlt := r.offset_lt
  have haddr : (BitVec.ofNat 9 (r.offset + k)).toNat = r.offset + k := by
    rw [BitVec.toNat_ofNat]
    exact Nat.mod_eq_of_lt (by omega)
  have hword : (r.offset + k) / 4 * 4 = r.offset := by omega
  have hlane : (r.offset + k) % 4 = k := by omega
  rw [Block.byteAt, haddr, hword, hlane, ← Reg.addr, Block.wordAt_addr]
  rfl

/-- A write to an operand register leaves every byte outside it (R37). -/
theorem Block.byteAt_writeReg_other (b : Block) {r : Reg} (h : r.isOperand = true) (v : Word) {a : Addr}
    (ha : a.toNat / 4 ≠ r.offset / 4) : (b.writeReg r v).byteAt a = b.byteAt a := by
  unfold Block.byteAt Block.wordAt
  cases hq : Reg.ofAddr (BitVec.ofNat 9 (a.toNat / 4 * 4)) with
  | none => rfl
  | some q =>
    have hne : q ≠ r := by
      rintro rfl
      have hoff := Reg.ofAddr_eq_some_iff.mp hq
      rw [BitVec.toNat_ofNat] at hoff
      omega
    dsimp only
    rw [Block.readReg_writeReg_other b h hne]

/-! ## The obligations -/

/-- Settles O34: an address has the register whose offset it is, each offset below the window's end. -/
theorem registerMapIsOneToOne : Obligations.RegisterMapIsOneToOne := by
  refine ⟨fun a r => Reg.ofAddr_eq_some_iff, fun r => ⟨r.offset_mod_four, r.offset_lt⟩, by decide, fun i => ?_,
    fun i => ?_⟩
  · exact ⟨(Reg.matA i).ofAddr_addr, (Reg.matB i).ofAddr_addr, (Reg.matR i).ofAddr_addr⟩
  · exact ⟨(Reg.vec i).ofAddr_addr, (Reg.vecR i).ofAddr_addr⟩

/-- Settles O35: a write that changes the block found a register whose write rule is not to ignore. -/
theorem onlyListedWritesHaveEffects : Obligations.OnlyListedWritesHaveEffects := by
  refine ⟨fun s t a ops h hstep => ?_, fun s t ops h hstep => ?_, fun s t a v k ops h hstep hne => ?_⟩
  · cases (step_of_host_read_any h).symm.trans hstep
    exact State.memRead_block _ a
  · obtain h | h := h
    · cases (step_of_waitNotBusy h).symm.trans hstep
      rfl
    · cases (step_of_waitIrq h).symm.trans hstep
      rfl
  · cases (step_of_host_write_any h).symm.trans hstep
    obtain ⟨-, heq⟩ | ⟨-, -, -, heq⟩ | ⟨r, rfl, hk, heq⟩ := State.memWrite_cases
      { s with host := ops, turns := s.turns.tail } a v k <;> rw [heq] at hne
    · exact absurd rfl hne
    · exact absurd rfl hne
    · refine ⟨hk, ?_⟩
      rw [Reg.toNat_addr]
      obtain rfl | rfl | rfl | hr := Reg.writable_of_writeReg_ne hne
      · exact .inl rfl
      · exact .inr (.inl rfl)
      · exact .inr (.inr (.inl rfl))
      · obtain rfl | hrange := Reg.offset_of_isOperand hr
        · exact .inr (.inr (.inr (.inl rfl)))
        · exact .inr (.inr (.inr (.inr hrange)))

/-- Settles O38, from the fields of the word a read returns and the write rule of STATUS. -/
theorem statusLayoutAndWriteOneToClear : Obligations.StatusLayoutAndWriteOneToClear := by
  refine ⟨fun s ops h => ?_, fun s v ops h => ?_⟩
  · obtain ⟨hbusy, hdone, hovr, hzero, hrc, hlast, hhigh⟩ := s.block.statusWord_fields
    exact ⟨_, step_of_host_read_specified (r := .status) h (.inl rfl), hbusy, hdone, hovr, hzero, hlast, hhigh,
      (congrArg BitVec.toNat hrc).trans s.block.rc.toNat_code⟩
  · rw [step_of_host_write (r := .status) h, Block.writeReg, Block.writeStatus]
    cases v.getLsbD 1 <;> cases v.getLsbD 2 <;> simp

/-- Settles O40: the write rule of CMD is acceptance while idle and overrun while busy. -/
theorem cmdReadsBackTheLastAcceptedWord : Obligations.CmdReadsBackTheLastAcceptedWord := by
  refine fun s ops => ⟨fun h => step_of_host_read_specified (r := .cmd) h (.inl rfl), fun w h => ?_⟩
  refine ⟨_, step_of_host_write (r := .cmd) h, rfl, ?_⟩
  obtain ⟨hv, heq⟩ | ⟨hv, heq⟩ := s.block.presentCommand_cases w <;> simp [Block.writeReg, heq, hv]

/-- Settles O41, from what each register reads after an operand write. -/
theorem operandWritesStoreAndReadBack : Obligations.OperandWritesStoreAndReadBack := by
  intro s r v ops hr h
  have hcmd : r ≠ .cmd := by
    rintro rfl
    cases hr
  exact ⟨_, step_of_host_write h, rfl, rfl, rfl, rfl, s.block.readReg_writeReg_operand hr v,
    fun a ha => s.block.byteAt_writeReg_other hr v ha, fun q hq => s.block.readReg_writeReg_other hr hq v,
    s.block.writeReg_latch hcmd v⟩

/-- Settles O42: each of the addresses is a result register's, whose idle read is specified and whose write rule is to
ignore. -/
theorem resultRegistersReadAndIgnoreWrites : Obligations.ResultRegistersReadAndIgnoreWrites := by
  intro s a w ops haw
  obtain ⟨r, hr, rfl, rfl⟩ : ∃ r : Reg, r.isResult = true ∧ a = r.addr ∧ w = s.block.readReg r := by
    obtain ⟨ha, hw⟩ | ⟨ha, hw⟩ | ⟨ha, hw⟩ | ⟨ha, hw⟩ | ⟨i, ha, hw⟩ | ⟨i, ha, hw⟩ := haw
    exacts [⟨.resScalar, rfl, ha, hw⟩, ⟨.resGcd, rfl, ha, hw⟩, ⟨.resDetLo, rfl, ha, hw⟩, ⟨.resDetHi, rfl, ha, hw⟩,
      ⟨.matR i, rfl, ha, hw⟩, ⟨.vecR i, rfl, ha, hw⟩]
  refine ⟨fun hidle h => step_of_host_read_specified h (.inr hidle), fun v h => ?_⟩
  rw [step_of_host_write h, Block.writeReg_result _ hr]

/-- Settles O43: the one kind of read that R104 leaves open. -/
theorem busyResultReadsAreFree : Obligations.BusyResultReadsAreFree := by
  intro s r ops hr hbusy h
  rw [step_of_host_read h, State.memRead_reg, if_pos ⟨hr, hbusy⟩]

/-- Settles O44: bytes 0 to 3 of the determinant are those of RES_DET_LO, bytes 4 to 7 those of RES_DET_HI. -/
theorem windowBytesAreLittleEndian : Obligations.WindowBytesAreLittleEndian := by
  refine ⟨fun b r k => b.byteAt_offset_add r k.isLt, fun b k => ?_⟩
  obtain hlow | hhigh := Nat.lt_or_ge k.val 4
  · rw [BitVec.extractLsb'_append_eq_of_add_le (by omega)]
    exact b.byteAt_offset_add .resDetLo hlow
  · have hk : k.val - 4 < 4 := by omega
    have haddr : 0x108 + k.val = Reg.resDetHi.offset + (k.val - 4) := by simp only [Reg.offset]; omega
    rw [BitVec.extractLsb'_append_eq_of_le (by omega), haddr, b.byteAt_offset_add .resDetHi hk]
    congr 1
    omega

end Sys2Proof.Machine
end

section
/-! Proofs about every step of the machine: which next state it has, and what it leaves in STATUS, in `irq`, in L, in
the results and in the host's list (10_state.md R14, R26; 20_memory.md R36, R41; 60_exceptions.md R88;
70_reset_and_hazards.md R104-R107). -/

namespace Sys2Proof.Machine

open Sys2Proof.Safety

/-! ## The forms of a step that does nothing -/

/-- The core's turn with no command in flight passes. -/
theorem step_of_idle_core {s : State} (hturn : nextTurn s = .core) (hidle : s.block.latch.valid = false) :
    step s = .next { s with turns := s.turns.tail, port := .idle } := by
  simp only [step, hturn, takeTurn]
  exact coreTurn_idle hidle

/-- The host's turn with no access left passes. -/
theorem step_of_no_access {s : State} (hturn : nextTurn s = .host) (hhost : s.host = []) :
    step s = .next { s with turns := s.turns.tail, port := .idle } := by
  simp only [step, hturn, takeTurn, hostTurn, hhost]
  rfl

theorem State.memWrite_frame (s : State) (a : Addr) (v : Word) (k : Strobes) :
    (s.memWrite a v k).host = s.host ∧ (s.memWrite a v k).turns = s.turns ∧ (s.memWrite a v k).draws = s.draws := by
  obtain ⟨-, heq⟩ | ⟨-, -, -, heq⟩ | ⟨r, -, -, heq⟩ := s.memWrite_cases a v k <;> rw [heq] <;> exact ⟨rfl, rfl, rfl⟩

/-! ## The next state -/

/-- Whoever moves, a step answers a next state, uses one turn up, and takes at most the first access off the host's
list; without a host turn it takes none and completes no access (R41). -/
theorem exists_step (s : State) : ∃ t, step s = .next t ∧ t.turns = s.turns.tail ∧
    (t.host = s.host ∨ ∃ op, s.host = op :: t.host) ∧ (nextTurn s ≠ .host → t.host = s.host ∧ t.port = .idle) := by
  cases hturn : nextTurn s with
  | reset => exact ⟨_, step_of_reset hturn, rfl, .inl rfl, fun _ => ⟨rfl, rfl⟩⟩
  | core =>
    cases hv : s.block.latch.valid with
    | true => exact ⟨_, step_of_completion ⟨hturn, hv⟩, rfl, .inl rfl, fun _ => ⟨rfl, rfl⟩⟩
    | false => exact ⟨_, step_of_idle_core hturn hv, rfl, .inl rfl, fun _ => ⟨rfl, rfl⟩⟩
  | host =>
    simp only [ne_eq, not_true_eq_false, false_implies, and_true]
    cases hhost : s.host with
    | nil => exact ⟨_, step_of_no_access hturn hhost, rfl, .inl hhost⟩
    | cons op ops =>
      cases op with
      | read a => exact ⟨_, step_of_host_read_any ⟨hturn, hhost⟩, by simp, .inr ⟨.read a, by simp⟩⟩
      | write a v k =>
        obtain ⟨hh, ht, -⟩ := State.memWrite_frame { s with host := ops, turns := s.turns.tail } a v k
        exact ⟨_, step_of_host_write_any ⟨hturn, hhost⟩, ht, .inr ⟨_, by rw [hh]⟩⟩
      | waitNotBusy =>
        refine ⟨_, step_of_waitNotBusy ⟨hturn, hhost⟩, rfl, ?_⟩
        cases s.block.latch.valid <;> simp [hhost]
      | waitIrq =>
        refine ⟨_, step_of_waitIrq ⟨hturn, hhost⟩, rfl, ?_⟩
        cases s.block.ie && s.block.done <;> simp [hhost]

theorem step_host {s t : State} (h : step s = .next t) : (t.host = s.host ∨ ∃ op, s.host = op :: t.host) ∧
    (nextTurn s ≠ .host → t.host = s.host ∧ t.port = .idle) := by
  obtain ⟨u, hu, -, hhost⟩ := exists_step s
  cases hu.symm.trans h
  exact hhost

/-- A run of one step more, from its first step. -/
theorem exists_step_of_run_succ {k : Nat} {s t : State} (h : Host.Core.run Sys2Proof.core (k + 1) s = .next t) :
    ∃ u, step s = .next u ∧ Host.Core.run Sys2Proof.core k u = .next t := by
  obtain ⟨u, hu, -⟩ := exists_step s
  exact ⟨u, hu, (run_succ k hu).symm.trans h⟩

/-- What a run has used up of the host's list is its front (R41). -/
theorem host_of_run {k : Nat} {s t : State} (h : Host.Core.run Sys2Proof.core k s = .next t) :
    ∃ taken : List HostOp, s.host = taken ++ t.host := by
  induction k generalizing s with
  | zero =>
    cases h
    exact ⟨[], rfl⟩
  | succ k ih =>
    obtain ⟨u, hu, hrun⟩ := exists_step_of_run_succ h
    obtain ⟨taken, htaken⟩ := ih hrun
    obtain hsame | ⟨op, hop⟩ := (step_host hu).1
    · exact ⟨taken, hsame ▸ htaken⟩
    · exact ⟨op :: taken, by rw [hop, htaken, List.cons_append]⟩

/-! ## What a write leaves -/

theorem Block.writeReg_ie (b : Block) (r : Reg) (v : Word) :
    (b.writeReg r v).ie = if r = .ctrl then v.getLsbD 0 else b.ie := by
  cases r with
  | cmd => obtain ⟨-, heq⟩ | ⟨-, heq⟩ := b.presentCommand_cases v <;> simp [Block.writeReg, heq]
  | _ => rfl

/-- No write rule but acceptance changes L, RC or LAST_OP (R14, R82). -/
theorem Block.writeReg_accepts_or_keeps (b : Block) (r : Reg) (v : Word) : (r = .cmd ∧ b.latch.valid = false) ∨
    ((b.writeReg r v).latch = b.latch ∧ (b.writeReg r v).rc = b.rc ∧ (b.writeReg r v).lastOp = b.lastOp) := by
  cases r with
  | cmd =>
    obtain ⟨hv, -⟩ | ⟨-, heq⟩ := b.presentCommand_cases v
    · exact .inl ⟨rfl, hv⟩
    · exact .inr (by rw [Block.writeReg, heq]; exact ⟨rfl, rfl, rfl⟩)
  | _ => exact .inr ⟨rfl, rfl, rfl⟩

/-- No write rule changes a result register, acceptance included (R21-R25, R81). -/
theorem Block.writeReg_results (b : Block) (r : Reg) (v : Word) :
    (b.writeReg r v).resScalar = b.resScalar ∧ (b.writeReg r v).resGcd = b.resGcd ∧
    (b.writeReg r v).resDetLo = b.resDetLo ∧ (b.writeReg r v).resDetHi = b.resDetHi ∧
    (b.writeReg r v).matR = b.matR ∧ (b.writeReg r v).vecR = b.vecR := by
  cases r with
  | cmd =>
    obtain ⟨-, heq⟩ | ⟨-, heq⟩ := b.presentCommand_cases v <;> rw [Block.writeReg, heq] <;>
      exact ⟨rfl, rfl, rfl, rfl, rfl, rfl⟩
  | _ => exact ⟨rfl, rfl, rfl, rfl, rfl, rfl⟩

/-! ## What a step leaves -/

/-- The coming step accepts a command: a CMD write while BUSY = 0 (R81). -/
def AcceptsCommand (s : State) : Prop :=
  s.block.latch.valid = false ∧ ∃ w ops, HostNext s (.write Reg.cmd.addr w 0b1111#4) ops

/-- L, RC and LAST_OP change by a reset, a completion or an acceptance alone (R14, R26). -/
theorem step_keeps_latch_rc_lastOp {s t : State} (h : step s = .next t) (hreset : nextTurn s ≠ .reset)
    (hcore : ¬ CompletesNext s) (haccept : ¬ AcceptsCommand s) :
    t.block.latch = s.block.latch ∧ t.block.rc = s.block.rc ∧ t.block.lastOp = s.block.lastOp := by
  obtain ⟨hn, -⟩ | ⟨hc, -⟩ | ⟨r, v, ops, hw, heq⟩ | ⟨-, -, -, heq⟩ := step_cases_exclusive h
  · exact absurd hn hreset
  · exact absurd hc hcore
  · obtain ⟨rfl, hv⟩ | hkeep := s.block.writeReg_accepts_or_keeps r v
    · exact absurd ⟨hv, v, ops, hw⟩ haccept
    · rwa [heq]
  · rw [heq]
    exact ⟨rfl, rfl, rfl⟩

/-- The result registers change by a reset or a completion alone (R107). -/
theorem step_keeps_results {s t : State} (h : step s = .next t) (hreset : nextTurn s ≠ .reset)
    (hcore : ¬ CompletesNext s) : t.block.resScalar = s.block.resScalar ∧ t.block.resGcd = s.block.resGcd ∧
      t.block.resDetLo = s.block.resDetLo ∧ t.block.resDetHi = s.block.resDetHi ∧
      t.block.matR = s.block.matR ∧ t.block.vecR = s.block.vecR := by
  obtain ⟨hn, -⟩ | ⟨hc, -⟩ | ⟨r, v, ops, hw, heq⟩ | ⟨-, -, -, heq⟩ := step_cases_exclusive h
  · exact absurd hn hreset
  · exact absurd hc hcore
  · rw [heq]
    exact s.block.writeReg_results r v
  · rw [heq]
    exact ⟨rfl, rfl, rfl, rfl, rfl, rfl⟩

theorem not_acceptsCommand_of_busy {s : State} (h : s.block.latch.valid = true) : ¬ AcceptsCommand s := by
  rintro ⟨hv, -⟩
  cases hv.symm.trans h

/-! ## A disciplined host -/

/-- A read that is aligned and of no result register while busy draws no free value and answers no `err`. -/
theorem State.memRead_disciplined (s : State) {a : Addr} (ha : aligned a = true)
    (hres : (s.block.latch.valid && (Reg.ofAddr a).any Reg.isResult) = false) :
    ∃ w, s.memRead a = { s with port := .readDone w false } := by
  cases hr : Reg.ofAddr a with
  | none => exact ⟨_, s.memRead_reserved ha hr⟩
  | some r =>
    have hopen : ¬ (r.isResult = true ∧ s.block.latch.valid = true) := by
      rintro ⟨hresult, hbusy⟩
      simp [hr, hresult, hbusy] at hres
    rw [← Reg.addr_of_ofAddr hr, State.memRead_reg, if_neg hopen]
    exact ⟨_, rfl⟩

/-- A write that is aligned and has all strobes answers no `err`. -/
theorem State.memWrite_port (s : State) {a : Addr} (v : Word) (ha : aligned a = true) :
    (s.memWrite a v 0b1111#4).port = .writeDone false := by
  obtain ⟨hbad | hbad, -⟩ | ⟨-, -, -, heq⟩ | ⟨r, -, -, heq⟩ := s.memWrite_cases a v 0b1111#4
  · cases hbad.symm.trans ha
  · exact absurd rfl hbad
  · rw [heq]
  · rw [heq]

/-- The host op of a host turn that has one. -/
theorem comingOp_of_hostNext {s : State} {op : HostOp} {ops : List HostOp} (h : HostNext s op ops) :
    comingOp s = some op := by
  obtain ⟨hturn, hhost⟩ := h
  simp [comingOp, hturn, hhost]

/-- A disciplined step draws no free value, and the port completes no access in it with `err` = 1 (R36, R104). -/
theorem step_disciplined {s t : State} (hd : disciplined s = true) (h : step s = .next t) : t.draws = s.draws ∧
    (t.port = .idle ∨ (∃ w, t.port = .readDone w false) ∨ t.port = .writeDone false) := by
  cases hturn : nextTurn s with
  | reset =>
    cases (step_of_reset hturn).symm.trans h
    exact ⟨rfl, .inl rfl⟩
  | core =>
    cases hv : s.block.latch.valid with
    | true =>
      cases (step_of_completion ⟨hturn, hv⟩).symm.trans h
      exact ⟨rfl, .inl rfl⟩
    | false =>
      cases (step_of_idle_core hturn hv).symm.trans h
      exact ⟨rfl, .inl rfl⟩
  | host =>
    cases hhost : s.host with
    | nil =>
      cases (step_of_no_access hturn hhost).symm.trans h
      exact ⟨rfl, .inl rfl⟩
    | cons op ops =>
      have hnext : HostNext s op ops := ⟨hturn, hhost⟩
      rw [disciplined, comingOp_of_hostNext hnext] at hd
      cases op with
      | read a =>
        simp only [busError, Bool.not_not, Block.busy, Bool.and_eq_true, Bool.not_eq_true'] at hd
        obtain ⟨ha, hres⟩ := hd
        obtain ⟨w, heq⟩ := State.memRead_disciplined { s with host := ops, turns := s.turns.tail } ha hres
        cases (step_of_host_read_any hnext).symm.trans h
        rw [heq]
        exact ⟨rfl, .inr (.inl ⟨w, rfl⟩)⟩
      | write a v k =>
        obtain ⟨⟨ha, rfl⟩, -⟩ : (aligned a = true ∧ k = 0b1111#4) ∧ _ := by
          simpa only [busError, Bool.not_or, Bool.not_not, Bool.and_eq_true, Bool.not_eq_true', bne_eq_false_iff_eq]
            using hd
        cases (step_of_host_write_any hnext).symm.trans h
        exact ⟨(State.memWrite_frame _ a v _).2.2, .inr (.inr (State.memWrite_port _ v ha))⟩
      | waitNotBusy =>
        cases (step_of_waitNotBusy hnext).symm.trans h
        exact ⟨rfl, .inr (.inl ⟨_, rfl⟩)⟩
      | waitIrq =>
        cases (step_of_waitIrq hnext).symm.trans h
        exact ⟨rfl, .inl rfl⟩

theorem not_dropsCommand_of_disciplined {s : State} (h : disciplined s = true) : ¬ DropsCommand s := by
  rintro ⟨hbusy, w, ops, hnext⟩
  rw [disciplined, comingOp_of_hostNext hnext] at h
  simp [Block.busy, hbusy, Reg.ofAddr_addr] at h

/-- To a disciplined host a step is the block's step (R36). -/
theorem hostStep_of_disciplined {s : State} (h : disciplined s = true) : hostStep s = step s := by
  unfold disciplined at h
  unfold hostStep
  cases hop : comingOp s with
  | none => rfl
  | some op =>
    rw [hop] at h
    simp only [Bool.and_eq_true, Bool.not_eq_true'] at h
    simp [h.1]

/-! ## The obligations -/

/-- Settles O7: a command in flight that decodes completes as `exec` of it. -/
theorem stepRunsDecodedCommand : Obligations.StepRunsDecodedCommand :=
  fun _ _ h hi => step_of_decode_ok h hi

/-- Settles O39: a step of none of the three kinds keeps L, RC and LAST_OP. -/
theorem statusFieldsFollowTheLifecycle : Obligations.StatusFieldsFollowTheLifecycle := by
  intro s t h hchange
  by_contra hnone
  simp only [not_or] at hnone
  obtain ⟨hreset, hcore, haccept⟩ := hnone
  obtain ⟨hlatch, hrc, hlast⟩ := step_keeps_latch_rc_lastOp h hreset hcore haccept
  simp [hlatch, hrc, hlast] at hchange

/-- Settles O45: with no completion `irq` can rise only with IE, since only a completion sets DONE. -/
theorem interruptSignalsCompletion : Obligations.InterruptSignalsCompletion := by
  refine ⟨fun b => rfl, fun s t hc h => ?_, fun s t h hlow hhigh => ?_⟩
  · cases (step_of_completion hc).symm.trans h
    simp [Block.irq, inTurn]
  · obtain ⟨-, heq⟩ | ⟨hc, -⟩ | ⟨r, v, ops, hw, heq⟩ | ⟨-, -, -, heq⟩ := step_cases_exclusive h
    · cases (congrArg Block.irq heq).symm.trans hhigh
    · exact .inl hc
    · obtain ⟨hie, hdone⟩ : t.block.ie = true ∧ t.block.done = true := by simpa [Block.irq] using hhigh
      obtain hc | ⟨hold, -⟩ := (step_done_iff h).mp hdone
      · exact .inl hc
      rw [heq, Block.writeReg_ie] at hie
      split at hie
      · subst r
        exact .inr ⟨hold, v, ops, hw, hie⟩
      · simp [Block.irq, hie, hold] at hlow
    · rw [heq, hlow] at hhigh
      cases hhigh

/-- Settles O51: each agent's turn answers a next state. -/
theorem everyStateHasANextState : Obligations.EveryStateHasANextState := by
  intro s
  obtain ⟨t, ht, -⟩ := exists_step s
  exact ⟨t, ht⟩

/-- Settles O52: past completions and resets, RC changes by acceptance alone and the results not at all. -/
theorem resultsAreStableBetweenCompletions : Obligations.ResultsAreStableBetweenCompletions := by
  intro s t h hcore hreset
  obtain ⟨hscalar, hgcd, hlo, hhi, hmat, hvec⟩ := step_keeps_results h hreset hcore
  refine ⟨hscalar, hgcd, hlo, hhi, hmat, hvec, fun hrc => ?_⟩
  by_contra haccept
  exact hrc (step_keeps_latch_rc_lastOp h hreset hcore haccept).2.1

/-- Settles O53: while busy no step is an acceptance. -/
theorem latchIsStableWhileBusy : Obligations.LatchIsStableWhileBusy :=
  fun _ _ h hbusy hcore hreset =>
    (step_keeps_latch_rc_lastOp h hreset (fun hc => hcore hc.1) (not_acceptsCommand_of_busy hbusy)).1

/-- Settles O54: each kind of host turn by its form as a step, and a run by induction on its length. -/
theorem hostAccessesKeepTheirOrder : Obligations.HostAccessesKeepTheirOrder :=
  ⟨fun _ _ => step_host, fun _ => step_of_no_access, fun _ _ _ => step_of_host_read_any,
    fun _ _ _ _ _ => step_of_host_write_any, fun _ _ => step_of_waitNotBusy, fun _ _ => step_of_waitIrq,
    fun _ _ _ => host_of_run⟩

/-- Settles O56: no bus error is none of the port's either, and OVR rises by a dropped command alone. -/
theorem disciplinedHostMeetsNoHazard : Obligations.DisciplinedHostMeetsNoHazard := by
  intro s t hd h
  obtain ⟨hdraws, hport⟩ := step_disciplined hd h
  refine ⟨hdraws, fun hovr => ?_, fun w hw => ?_, fun hw => ?_, (hostStep_of_disciplined hd).trans h⟩
  · obtain hdrop | ⟨hold, -⟩ := (step_ovr_iff h).mp hovr
    · exact absurd hdrop (not_dropsCommand_of_disciplined hd)
    · exact hold
  · simp [hw] at hport
  · simp [hw] at hport

end Sys2Proof.Machine
end

section
/-! Proofs about runs: whatever the settled turns, as long as none is a reset, an accepted command completes and the
accesses of RUN end (30_encoding.md R56; 70_reset_and_hazards.md R102, R110). -/

namespace Sys2Proof.Machine

open Sys2Proof.Safety

/-! ## From one condition to the next -/

theorem run_add {k l : Nat} {s t : State} (h : Host.Core.run Sys2Proof.core k s = .next t) :
    Host.Core.run Sys2Proof.core (k + l) s = Host.Core.run Sys2Proof.core l t := by
  induction k generalizing s with
  | zero =>
    cases h
    rw [Nat.zero_add]
  | succ k ih =>
    obtain ⟨u, hu, hrun⟩ := exists_step_of_run_succ h
    rw [Nat.add_right_comm, run_succ _ hu, ih hrun]

/-- From every state with P and no reset settled a run leads to one with Q and no reset settled, in at most `n` steps
beyond the settled turns it uses up. -/
def LeadsTo (P Q : State → Prop) (n : Nat) : Prop :=
  ∀ s, P s → Turn.reset ∉ s.turns → ∃ (k : Nat) (t : State), Host.Core.run Sys2Proof.core k s = .next t ∧
    Q t ∧ Turn.reset ∉ t.turns ∧ k + t.turns.length ≤ s.turns.length + n

theorem LeadsTo.trans {P Q R : State → Prop} {m n : Nat} (h : LeadsTo P Q m) (h' : LeadsTo Q R n) :
    LeadsTo P R (m + n) := by
  intro s hs hreset
  obtain ⟨k, t, hrun, ht, hreset', hk⟩ := h s hs hreset
  obtain ⟨l, u, hrun', hu, hreset'', hl⟩ := h' t ht hreset'
  exact ⟨k + l, u, (run_add hrun).trans hrun', hu, hreset'', by omega⟩

/-- The agent that moves when no turn is settled gets its turn, and so its step, if the others keep P (assumption
log 2): by induction on the settled turns. -/
theorem leadsTo_of_turn {P Q : State → Prop} {agent : Turn}
    (hdefault : ∀ s, P s → s.turns = [] → nextTurn s = agent)
    (hkeep : ∀ s t, P s → nextTurn s ≠ agent → nextTurn s ≠ .reset → step s = .next t → P t)
    (hgoal : ∀ s t, P s → nextTurn s = agent → step s = .next t → Q t) : LeadsTo P Q 1 := by
  intro s hs hreset
  induction hturns : s.turns generalizing s with
  | nil =>
    obtain ⟨t, ht, htail, -⟩ := exists_step s
    rw [hturns] at htail
    exact ⟨1, t, run_succ 0 ht, hgoal s t hs (hdefault s hs hturns) ht, by simp [htail], by simp [htail]⟩
  | cons turn turns ih =>
    obtain ⟨t, ht, htail, -⟩ := exists_step s
    have hnext : nextTurn s = turn := by simp [nextTurn, hturns]
    rw [hturns] at htail hreset
    obtain ⟨hne, hreset'⟩ : Turn.reset ≠ turn ∧ Turn.reset ∉ turns := by simpa using hreset
    by_cases hagent : turn = agent
    · refine ⟨1, t, run_succ 0 ht, hgoal s t hs (hnext.trans hagent) ht, by simpa [htail] using hreset', ?_⟩
      simp only [htail, List.tail_cons, List.length_cons]
      omega
    · have hPt : P t := hkeep s t hs (hnext ▸ hagent) (hnext ▸ hne.symm) ht
      obtain ⟨k, u, hrun, hu, hresetu, hk⟩ := ih t hPt (by simpa [htail] using hreset') (by simp [htail])
      refine ⟨k + 1, u, (run_succ k ht).trans hrun, hu, hresetu, ?_⟩
      rw [List.length_cons]
      omega

/-! ## A command in flight -/

theorem nextTurn_of_no_turns {s : State} (h : s.turns = []) :
    nextTurn s = if s.block.latch.valid then .core else .host := by
  simp only [nextTurn, h]

/-- Whatever the host does, a command in flight completes (R110). -/
theorem busy_leadsTo_completed : LeadsTo (fun s => s.block.latch.valid = true)
    (fun t => t.block.latch.valid = false ∧ t.block.done = true) 1 :=
  leadsTo_of_turn (agent := .core)
    (fun s hbusy hturns => by rw [nextTurn_of_no_turns hturns, if_pos hbusy])
    (fun s t hbusy hcore hreset h => by
      rw [(step_keeps_latch_rc_lastOp h hreset (fun hc => hcore hc.1) (not_acceptsCommand_of_busy hbusy)).1]
      exact hbusy)
    (fun s t hbusy hcore h => by
      cases (step_of_completion ⟨hcore, hbusy⟩).symm.trans h
      exact ⟨rfl, rfl⟩)

/-! ## RUN -/

/-- The machine but for who moves, what the port answered and the count of free values: its block, and the host's
accesses to come. -/
def Holds (b : Block) (host : List HostOp) (s : State) : Prop := s.block = b ∧ s.host = host

/-- While idle the core's turns pass, until the host makes its next access. -/
theorem idle_leadsTo {b : Block} {host : List HostOp} {Q : State → Prop} (hidle : b.latch.valid = false)
    (hgoal : ∀ s t, Holds b host s → nextTurn s = .host → step s = .next t → Q t) : LeadsTo (Holds b host) Q 1 := by
  refine leadsTo_of_turn (agent := .host) ?_ ?_ hgoal
  · rintro s ⟨rfl, -⟩ hturns
    simp [nextTurn_of_no_turns hturns, hidle]
  · rintro s t ⟨rfl, hhost⟩ hturn hreset h
    have hcore : nextTurn s = .core := by
      cases hn : nextTurn s <;> simp_all
    cases (step_of_idle_core hcore hidle).symm.trans h
    exact ⟨rfl, hhost⟩

/-- A command presented while idle is accepted (R81). -/
theorem presenting_leadsTo_accepted {b : Block} (w : Word) (ops : List HostOp) (hidle : b.latch.valid = false) :
    LeadsTo (Holds b (wrOp .cmd w :: ops)) (Holds (b.accept w) ops) 1 := by
  refine idle_leadsTo hidle ?_
  rintro s t ⟨rfl, hhost⟩ hturn h
  cases (step_of_host_write ⟨hturn, hhost⟩).symm.trans h
  exact ⟨Block.presentCommand_idle hidle w, rfl⟩

/-- The host's polls see BUSY = 1 until the core completes the command (R84). -/
theorem polling_leadsTo_completed {b : Block} (ops : List HostOp) (hbusy : b.latch.valid = true) :
    LeadsTo (Holds b (.waitNotBusy :: ops)) (Holds (b.complete (latchResult b.latch)) (.waitNotBusy :: ops)) 1 := by
  refine leadsTo_of_turn (agent := .core) ?_ ?_ ?_
  · rintro s ⟨rfl, -⟩ hturns
    simp [nextTurn_of_no_turns hturns, hbusy]
  · rintro s t ⟨rfl, hhost⟩ hturn hreset h
    have hhostTurn : nextTurn s = .host := by
      cases hn : nextTurn s <;> simp_all
    cases (step_of_waitNotBusy ⟨hhostTurn, hhost⟩).symm.trans h
    exact ⟨rfl, by simp [hbusy, hhost]⟩
  · rintro s t ⟨rfl, hhost⟩ hturn h
    cases (step_of_completion ⟨hturn, hbusy⟩).symm.trans h
    exact ⟨rfl, hhost⟩

/-- A poll while idle sees BUSY = 0 and ends `WAIT` (R56). -/
theorem polling_leadsTo_seen {b : Block} (ops : List HostOp) (hidle : b.latch.valid = false) :
    LeadsTo (Holds b (.waitNotBusy :: ops))
      (fun t => Holds b ops t ∧ t.port = .readDone b.statusWord false) 1 := by
  refine idle_leadsTo hidle ?_
  rintro s t ⟨rfl, hhost⟩ hturn h
  cases (step_of_waitNotBusy ⟨hturn, hhost⟩).symm.trans h
  exact ⟨⟨rfl, by simp [hidle]⟩, rfl⟩

/-! ## The obligations -/

/-- Settles O50: the core gets its turn, and until then no host access touches L. -/
theorem acceptedCommandCompletes : Obligations.AcceptedCommandCompletes := by
  intro s hbusy hreset
  obtain ⟨k, t, hrun, ⟨hidle, hdone⟩, -, hk⟩ := busy_leadsTo_completed s hbusy hreset
  exact ⟨k, t, by omega, hrun, hidle, hdone⟩

/-- Settles O55: the command is presented and accepted, completes, and is seen to have completed, one phase after
another. -/
theorem runPseudoInstructionCompletes : Obligations.RunPseudoInstructionCompletes := by
  intro s i ops hwf hreset hidle hhost
  have hresult : latchResult (s.block.accept (encode i)).latch =
      commandResult i (s.block.accept (encode i)).latch := by
    rw [latchResult, Block.accept_latch, decode_encode hwf]
  obtain ⟨k, t, hrun, ⟨⟨hblock, hops⟩, hport⟩, -, hk⟩ :=
    (((presenting_leadsTo_accepted (encode i) (.waitNotBusy :: ops) hidle).trans
      (polling_leadsTo_completed ops rfl)).trans (polling_leadsTo_seen ops rfl)) s ⟨rfl, hhost⟩ hreset
  rw [hresult] at hblock hport
  exact ⟨k, _, t, by omega, exec_eq i _, hrun, hblock, hops, hport, (Block.statusWord_fields _).1⟩

/-- Settles O49: the first write is an idle CMD write, and the two commands run on the operands of reset. -/
theorem firstCommandAfterResetIsAccepted : Obligations.FirstCommandAfterResetIsAccepted := by
  refine ⟨fun w => ⟨_, step_of_host_write (r := .cmd) ⟨rfl, rfl⟩, rfl, rfl⟩, ⟨_, rfl, rfl, rfl⟩, ⟨_, rfl, rfl, rfl⟩⟩

end Sys2Proof.Machine
end

section
/-! Proofs about completions: the codes and the registers of each command, what they depend on, and that MATVEC with
the inverse of a key undoes MATVEC with the key (60_exceptions.md R83-R86; 42_crt_inverter.md R79). -/

namespace Sys2Proof.Machine

open Sys2Proof.Safety

/-! ## The forms of a completion -/

/-- The codes a decoded command can complete with (R86). -/
def codesOf : Instr → List ResultCode
  | .pmod _ | .detm _ | .adjm _ | .redm _ | .scalem _ => [.ok, .illegalOperand]
  | .modinv _ => [.ok, .noInverse, .illegalOperand]
  | .crt | .matvec => [.ok]
  | .inv26 => [.ok, .noninvMod2, .noninvMod13]

/-- The result registers that are not the command's own are not written (R85). -/
structure WritesOwn (i : Instr) (w : Writes) : Prop where
  scalar : i.mnemonic ∉ ["PMOD", "MODINV", "DETM"] → w.resScalar = none := by simp [Instr.mnemonic]
  gcd : i.mnemonic ≠ "MODINV" → w.resGcd = none := by simp [Instr.mnemonic]
  det : i.mnemonic ≠ "DETM" → w.resDet = none := by simp [Instr.mnemonic]
  matrix : i.mnemonic ∉ ["ADJM", "REDM", "SCALEM", "CRT", "INV26"] → w.matR = none := by simp [Instr.mnemonic]
  vector : i.mnemonic ≠ "MATVEC" → w.vecR = none := by simp [Instr.mnemonic]

/-- A completion fails without a result, is MODINV's with the gcd alone, or is OK with the command's own results
(R85, R86). -/
inductive CompletionForm (i : Instr) : Completion → Prop where
  | failed (rc : ResultCode) (hrc : rc ∈ codesOf i) (hne : rc ≠ .noInverse) : CompletionForm i (.failed rc)
  | noInverse (g : Word) (hi : i.mnemonic = "MODINV") (hrc : .noInverse ∈ codesOf i) :
      CompletionForm i { rc := .noInverse, writes := { resGcd := some g } }
  | ok (w : Writes) (hw : WritesOwn i w) (hrc : .ok ∈ codesOf i) : CompletionForm i { rc := .ok, writes := w }

/-- The modulus guard adds the failure of m = 0 (R52). -/
theorem completionForm_guardModulus {i : Instr} {m : Nat} {c : Completion} (hi : .illegalOperand ∈ codesOf i)
    (h : CompletionForm i c) : CompletionForm i (guardModulus m c) := by
  obtain rfl | hm := Nat.eq_zero_or_pos m
  · exact .failed .illegalOperand hi (by decide)
  · rwa [guardModulus_pos hm]

/-- Every command's completion has one of the three forms. -/
theorem commandResult_form (i : Instr) (L : Latch) : CompletionForm i (commandResult i L) := by
  cases i with
  | pmod m | detm m | adjm m | redm m | scalem m =>
    exact completionForm_guardModulus (by simp [codesOf]) (.ok _ {} (by simp [codesOf]))
  | modinv m =>
    refine completionForm_guardModulus (by simp [codesOf]) ?_
    cases modularInverse L.scalar m with
    | none => exact .noInverse _ rfl (by simp [codesOf])
    | some x => exact .ok _ {} (by simp [codesOf])
  | crt | matvec => exact .ok _ {} (by simp [codesOf])
  | inv26 =>
    rw [commandResult, inv26Result]
    obtain ⟨-, h⟩ | ⟨-, -, h⟩ | ⟨-, e, -, h⟩ := invert26_cases L.intsA <;> rw [h]
    · exact .failed _ (by simp [codesOf]) (by decide)
    · exact .failed _ (by simp [codesOf]) (by decide)
    · exact .ok _ {} (by simp [codesOf])

theorem CompletionForm.rc_mem {i : Instr} {c : Completion} (h : CompletionForm i c) : c.rc ∈ codesOf i := by
  cases h with
  | failed rc hrc hne => exact hrc
  | noInverse g hi hrc => exact hrc
  | ok w hw hrc => exact hrc

/-- The codes by opcode, as R86 lists them. -/
theorem codesOf_eq (i : Instr) : codesOf i =
    if i.opcode.toNat = 2 then [.ok, .noInverse, .illegalOperand]
    else if i.opcode.toNat ≤ 6 then [.ok, .illegalOperand]
    else if i.opcode.toNat ≤ 8 then [.ok]
    else [.ok, .noninvMod2, .noninvMod13] := by
  cases i <;> rfl

/-- A word completes with ILLEGAL_COMMAND, or with a code of the command of its opcode (R53, R86). -/
theorem latchResult_rc (L : Latch) : (latchResult L).rc = .illegalCommand ∨
    ∃ i, opcodeField L.cmd = i.opcode ∧ (latchResult L).rc ∈ codesOf i := by
  unfold latchResult
  cases h : decode L.cmd with
  | error e => exact .inl rfl
  | ok i => exact .inr ⟨i, (fields_of_decode_ok h).1, (commandResult_form i L).rc_mem⟩

/-! ## The obligations about completions -/

/-- Settles O29, by the three forms of a completion. -/
theorem completionWritesOnlyItsResults : Obligations.CompletionWritesOnlyItsResults := by
  intro i s t h
  cases (exec_eq i s).symm.trans h
  have hform := commandResult_form i s.block.latch
  rw [State.complete_block]
  generalize commandResult i s.block.latch = c at hform ⊢
  cases hform with
  | failed rc hrc hne =>
    exact ⟨fun _ => ⟨rfl, rfl, rfl, rfl, rfl⟩, fun _ _ => rfl, fun hno => absurd hno hne, fun _ => rfl, fun _ => rfl,
      fun _ => ⟨rfl, rfl⟩, fun _ => rfl, fun _ => rfl⟩
  | noInverse g hi hrc =>
    exact ⟨fun _ => ⟨rfl, rfl, rfl, rfl, rfl⟩, fun _ hno => absurd rfl hno, fun _ => hi, fun _ => rfl,
      fun hne => absurd hi hne, fun _ => ⟨rfl, rfl⟩, fun _ => rfl, fun _ => rfl⟩
  | ok w hw hrc =>
    refine ⟨fun hne => absurd rfl hne, fun hne => absurd rfl hne, nofun, fun hi => ?_, fun hi => ?_, fun hi => ?_,
      fun hi => ?_, fun hi => ?_⟩
    · simp [hw.scalar hi]
    · simp [hw.gcd hi]
    · simp [hw.det hi]
    · simp [hw.matrix hi]
    · simp [hw.vector hi]

/-- Settles O30: the opcode of a word fixes its command, if it has one, and with it the codes. -/
theorem resultCodesByCommand : Obligations.ResultCodesByCommand := by
  intro s t op hc hop h
  cases (step_of_completion hc).symm.trans h
  change op = (opcodeField s.block.latch.cmd).toNat at hop
  simp only [State.complete_block, Block.complete_rc, Block.complete_lastOp, Block.complete_cmd]
  obtain hrc | ⟨i, hi, hrc⟩ := latchResult_rc s.block.latch
  · simp [hrc, inTurn]
  · obtain ⟨h1, h9⟩ := opcode_range i
    rw [codesOf_eq, ← hi, ← hop] at hrc
    rw [← hi, ← hop] at h1 h9
    refine ⟨fun h => ?_, fun h => ?_, fun h => ?_, fun h => ?_, fun h => ?_, by omega, rfl, rfl⟩
    · rw [if_neg (by omega), if_pos (by omega)] at hrc
      exact List.mem_append_left [.illegalCommand] hrc
    · rw [if_pos h] at hrc
      exact List.mem_append_left [.illegalCommand] hrc
    · rw [if_neg (by omega), if_pos (by omega)] at hrc
      exact List.mem_append_left [.illegalCommand] hrc
    · rw [if_neg (by omega), if_neg (by omega), if_pos (by omega)] at hrc
      exact List.mem_append_left [.illegalCommand] hrc
    · rw [if_neg (by omega), if_neg (by omega), if_neg (by omega)] at hrc
      exact List.mem_append_left [.illegalCommand] hrc

/-- Settles O31: both complete with what the command computes from the same L. -/
theorem resultsDependOnLatchAlone : Obligations.ResultsDependOnLatchAlone := by
  intro i s u s' u' hlatch hscalar hgcd hlo hhi hmat hvec hs hu
  cases (exec_eq i s).symm.trans hs
  cases (exec_eq i u).symm.trans hu
  simp only [State.complete_block, Block.complete_rc, Block.complete_resScalar, Block.complete_resGcd,
    Block.complete_resDetLo, Block.complete_resDetHi, Block.complete_matR, Block.complete_vecR, hlatch, hscalar,
    hgcd, hlo, hhi, hmat, hvec, and_self]

/-! ## Products modulo 26 -/

/-- A vector of integers read modulo `m`, beside `matrixMod`. -/
def vectorMod (m : Nat) (v : Fin 3 → Int) : Fin 3 → ZMod m := fun r => (v r : ZMod m)

theorem vectorMod_mulVec (m : Nat) (X : Matrix (Fin 3) (Fin 3) Int) (v : Fin 3 → Int) :
    vectorMod m (X.mulVec v) = (matrixMod m X).mulVec (vectorMod m v) :=
  funext fun r => (Int.castRingHom (ZMod m)).map_mulVec X v r

/-- Vectors with components in [0, m) are told apart modulo m. -/
theorem eq_of_vectorMod_eq {m : Nat} {u v : Fin 3 → Int} (hu : ∀ r, 0 ≤ u r ∧ u r < m)
    (hv : ∀ r, 0 ≤ v r ∧ v r < m) (h : vectorMod m u = vectorMod m v) (r : Fin 3) : u r = v r := by
  obtain ⟨hu0, hum⟩ := hu r
  obtain ⟨hv0, hvm⟩ := hv r
  have hmod : u r % m = v r % m := (ZMod.intCast_eq_intCast_iff' _ _ _).mp (congrFun h r)
  rwa [Int.emod_eq_of_lt hu0 hum, Int.emod_eq_of_lt hv0 hvm] at hmod

/-! ## Copies of results -/

/-- The vector of integers VEC_R holds, its components unsigned (R25). -/
def resultVectorOf (v : Vec3 ResElem) : Fin 3 → Int := fun r => ((v.get r).toNat : Int)

/-- A result element that the host reads and writes to an operand keeps its value: it is zero-extended (R24, R25,
R108). -/
theorem toInt_storeElem_loadResElem (x : ResElem) : (storeElem (loadResElem x)).toInt = (x.toNat : Int) := by
  have hlt := x.isLt
  have hnat : (storeElem (loadResElem x)).toNat = x.toNat := by
    simp [storeElem, loadResElem]
    omega
  rw [BitVec.toInt_eq_toNat_of_lt (by omega), hnat]

theorem matrixOf_copy (R : Mat3 ResElem) :
    matrixOf (R.map fun x => storeElem (loadResElem x)) = resultMatrixOf R := by
  ext r c
  simp only [matrixOf, resultMatrixOf, Matrix.of_apply, Mat3.entry_map, toInt_storeElem_loadResElem]

theorem vectorOf_copy (V : Vec3 ResElem) :
    vectorOf (V.map fun x => storeElem (loadResElem x)) = resultVectorOf V := by
  funext r
  simp only [vectorOf, resultVectorOf, Vec3.get_map, toInt_storeElem_loadResElem]

/-! ## INV26 and MATVEC modulo 26 -/

/-- INV26 that ends with OK leaves in MAT_R the inverse modulo 26 of the latched key (R79, R80). -/
theorem matrixMod_mul_of_inv26_ok {s t : State} (h : exec .inv26 s = .next t) (hrc : t.block.rc = .ok) :
    matrixMod 26 (resultMatrixOf t.block.matR) * matrixMod 26 (matrixOf s.block.latch.matA) = 1 := by
  obtain ⟨-, herr⟩ | ⟨-, -, herr⟩ | ⟨-, e, -, hok⟩ := invert26_cases s.block.latch.matA.toInts
  · cases (exec_inv26_of_error herr).symm.trans h
    cases hrc
  · cases (exec_inv26_of_error herr).symm.trans h
    cases hrc
  · cases (exec_inv26_of_ok hok).symm.trans h
    obtain ⟨hrange, hright⟩ := invert26_ok_spec hok
    rw [completed, resultMatrixOf_resultMatrix hrange, ← intMatrixOf_toInts]
    exact mul_eq_one_comm.mp hright

/-- MATVEC leaves in VEC_R the product modulo 26, by its residues (R72). -/
theorem resultVectorOf_matvec {s t : State} (h : exec .matvec s = .next t) :
    (∀ r, 0 ≤ resultVectorOf t.block.vecR r ∧ resultVectorOf t.block.vecR r < (26 : Nat)) ∧
    vectorMod 26 (resultVectorOf t.block.vecR) =
      (matrixMod 26 (matrixOf s.block.latch.matA)).mulVec (vectorMod 26 (vectorOf s.block.latch.vec)) := by
  obtain ⟨V, hres, hexec⟩ := matvecWritesProduct.1 s
  cases hexec.symm.trans h
  refine ⟨fun r => ?_, ?_⟩
  · have hlt := (hres r).1
    simp only [completed, resultVectorOf]
    omega
  · rw [← vectorMod_mulVec]
    funext r
    exact (ZMod.intCast_eq_intCast_iff_dvd_sub _ _ 26).mpr (hres r).2

/-- Settles O28: modulo 26 the second product is the first one times the inverse of the key, and letters in [0, 26)
are told apart modulo 26. -/
theorem decryptionUndoesEncryption : Obligations.DecryptionUndoesEncryption := by
  intro s s' e e' d d' hinv hrc hkey hletters henc hmat hvec hdec
  obtain ⟨-, hcipher⟩ := resultVectorOf_matvec henc
  obtain ⟨hrange, hplain⟩ := resultVectorOf_matvec hdec
  rw [hmat, hvec, matrixOf_copy, vectorOf_copy, hcipher, hkey, Matrix.mulVec_mulVec,
    matrixMod_mul_of_inv26_ok hinv hrc, Matrix.one_mulVec] at hplain
  exact eq_of_vectorMod_eq hrange hletters hplain

end Sys2Proof.Machine
end

section
/-! Proofs about the assembler: which lines it takes, and the word of each (30_encoding.md R55). -/

namespace Sys2Proof.Machine

open Sys2Proof.Safety

/-! ## Lines cut at their first space -/

theorem splitLine_of_no_space {line : List Char} (h : ' ' ∉ line) : splitLine line = (line, none) := by
  induction line with
  | nil => rfl
  | cons c cs ih =>
    obtain ⟨hc, hcs⟩ : ' ' ≠ c ∧ ' ' ∉ cs := by simpa using h
    rw [splitLine, ih hcs]
    exact fun h => hc h.symm

theorem splitLine_cases (line : List Char) : (' ' ∉ line ∧ splitLine line = (line, none)) ∨
    ∃ name text, line = name ++ ' ' :: text ∧ ' ' ∉ name ∧ splitLine line = (name, some text) := by
  by_cases h : ' ' ∈ line
  · obtain ⟨name, text, rfl, hname⟩ := List.eq_append_cons_of_mem h
    exact .inr ⟨name, text, rfl, hname, splitLine_append_space hname text⟩
  · exact .inl ⟨h, splitLine_of_no_space h⟩

theorem splitLine_eq_none_iff {line name : List Char} :
    splitLine line = (name, none) ↔ line = name ∧ ' ' ∉ name := by
  constructor
  · intro h
    obtain ⟨hspace, heq⟩ | ⟨_, _, -, -, heq⟩ := splitLine_cases line <;> cases heq.symm.trans h
    exact ⟨rfl, hspace⟩
  · rintro ⟨rfl, hspace⟩
    exact splitLine_of_no_space hspace

theorem splitLine_eq_some_iff {line name text : List Char} :
    splitLine line = (name, some text) ↔ line = name ++ ' ' :: text ∧ ' ' ∉ name := by
  constructor
  · intro h
    obtain ⟨-, heq⟩ | ⟨_, _, hline, hspace, heq⟩ := splitLine_cases line <;> cases heq.symm.trans h
    exact ⟨hline, hspace⟩
  · rintro ⟨rfl, hspace⟩
    exact splitLine_append_space hspace text

/-! ## Mnemonics -/

theorem space_not_mem_mnemonic (i : Instr) : ' ' ∉ i.mnemonic.toList := by
  cases i <;> simp [Instr.mnemonic]

theorem mnemonic_ne_word (i : Instr) : i.mnemonic.toList ≠ ['.', 'w', 'o', 'r', 'd'] := by
  cases i <;> simp [Instr.mnemonic]

/-- The command of a mnemonic without an operand (R55). -/
theorem plainCommand_eq_some_iff {name : List Char} {i : Instr} :
    plainCommand name = some i ↔ i.modulus? = none ∧ i.mnemonic.toList = name := by
  constructor
  · intro h
    unfold plainCommand at h
    split_ifs at h with h1 h2 h3 <;> cases h <;> subst name <;> simp [Instr.modulus?, Instr.mnemonic]
  · rintro ⟨hmod, rfl⟩
    cases i with
    | crt | matvec | inv26 => rfl
    | _ => cases hmod

/-- The command of a mnemonic and a modulus (R55). -/
theorem modulusCommand_eq_some_iff {name : List Char} {m : Nat} {i : Instr} :
    modulusCommand name m = some i ↔ i.modulus? = some m ∧ i.mnemonic.toList = name := by
  constructor
  · intro h
    unfold modulusCommand at h
    split_ifs at h with h1 h2 h3 h4 h5 h6 <;> cases h <;> subst name <;> simp [Instr.modulus?, Instr.mnemonic]
  · rintro ⟨hmod, rfl⟩
    cases i with
    | crt | matvec | inv26 => cases hmod
    | pmod m | modinv m | detm m | adjm m | redm m | scalem m =>
      cases hmod
      simp [modulusCommand, Instr.mnemonic]

/-! ## Numerals of eight digits -/

/-- A digit more multiplies the bound of a numeral by the base. -/
theorem foldl_digits_lt {base : Nat} {ds : List Char} {vs : List Nat}
    (h : List.Forall₂ (fun c v => (c, v) ∈ digitTable ∧ v < base) ds vs) (acc : Nat) :
    vs.foldl (fun a v => base * a + v) acc < (acc + 1) * base ^ ds.length := by
  induction h generalizing acc with
  | nil => simp
  | @cons c v ds vs hv _ ih =>
    have hdigit : base * acc + v + 1 ≤ (acc + 1) * base := by nlinarith [hv.2]
    calc (v :: vs).foldl (fun a v => base * a + v) acc < (base * acc + v + 1) * base ^ ds.length := ih _
      _ ≤ (acc + 1) * base * base ^ ds.length := Nat.mul_le_mul_right _ hdigit
      _ = (acc + 1) * base ^ (c :: ds).length := by rw [List.length_cons, pow_succ]; ring

theorem isNumeral_lt {base n : Nat} {ds : List Char} (h : IsNumeral base ds n) : n < base ^ ds.length := by
  obtain ⟨-, vs, hds, rfl⟩ := h
  simpa using foldl_digits_lt hds 0

/-- Eight hexadecimal digits read as a word are those of the word. -/
theorem readWord_iff {ds : List Char} (h8 : ds.length = 8) (w : Word) :
    (readDigits 16 hexDigit ds 0).map (BitVec.ofNat 32) = some w ↔ IsNumeral 16 ds w.toNat := by
  have hne : ds ≠ [] := by
    rintro rfl
    cases h8
  rw [Option.map_eq_some_iff]
  constructor
  · rintro ⟨n, hn, rfl⟩
    have hnum := (readHexadecimal_iff hne n).mp hn
    have hlt : n < 2 ^ 32 := (isNumeral_lt hnum).trans_eq (by rw [h8]; norm_num)
    rwa [BitVec.toNat_ofNat, Nat.mod_eq_of_lt hlt]
  · intro hnum
    exact ⟨w.toNat, (readHexadecimal_iff hne _).mpr hnum, by simp⟩

/-! ## The two kinds of line, by their cut -/

theorem isCommandLine_iff {i : Instr} {line : List Char} : IsCommandLine i line ↔
    (i.modulus? = none ∧ splitLine line = (i.mnemonic.toList, none)) ∨
    ∃ m text, i.modulus? = some m ∧ IsLiteral text m ∧ splitLine line = (i.mnemonic.toList, some text) := by
  have hspace := space_not_mem_mnemonic i
  unfold IsCommandLine
  cases hmod : i.modulus? with
  | none => simp [splitLine_eq_none_iff, hspace]
  | some m => simp [splitLine_eq_some_iff, hspace]

theorem isWordLine_iff {w : Word} {line : List Char} : IsWordLine w line ↔
    ∃ ds, ds.length = 8 ∧ IsNumeral 16 ds w.toNat ∧
      splitLine line = (['.', 'w', 'o', 'r', 'd'], some ('0' :: 'x' :: ds)) := by
  simp [IsWordLine, splitLine_eq_some_iff]

/-! ## What the assembler makes of each cut -/

section
variable {line name operand : List Char} {w : Word}

theorem assemble_of_plain (h : splitLine line = (name, none)) :
    assemble line = some w ↔ ∃ i, (i.modulus? = none ∧ i.mnemonic.toList = name) ∧ encode i = w := by
  simp only [assemble, h, Option.map_eq_some_iff, plainCommand_eq_some_iff]

theorem assemble_of_word (h : splitLine line = (['.', 'w', 'o', 'r', 'd'], some operand)) :
    assemble line = some w ↔ ∃ ds, operand = '0' :: 'x' :: ds ∧ ds.length = 8 ∧ IsNumeral 16 ds w.toNat := by
  simp only [assemble, h, if_true]
  split
  · rename_i ds
    split_ifs with h8
    · simp [readWord_iff h8, h8]
    · simp [h8]
  · rename_i hne
    simp only [reduceCtorEq, false_iff]
    rintro ⟨ds, hds, -⟩
    exact hne ds hds

theorem assemble_of_operand (h : splitLine line = (name, some operand)) (hname : name ≠ ['.', 'w', 'o', 'r', 'd']) :
    assemble line = some w ↔ ∃ m i, IsLiteral operand m ∧ (i.modulus? = some m ∧ i.mnemonic.toList = name) ∧
      i.legal = true ∧ encode i = w := by
  simp only [assemble, h, if_neg hname, ← readLiteral_iff, ← modulusCommand_eq_some_iff]
  cases hm : readLiteral operand with
  | none => simp
  | some m =>
    cases hi : modulusCommand name m with
    | none => simp [hi]
    | some i => simp [hi]

end

/-! ## The obligation -/

theorem legal_of_no_modulus {i : Instr} (h : i.modulus? = none) : i.legal = true := by
  simp [Instr.legal, h]

/-- Settles O6: a line and the assembler are compared at the line's first space, which no mnemonic has. -/
theorem assemblerSpellsLegalCommands : Obligations.AssemblerSpellsLegalCommands := by
  intro line w
  simp only [isCommandLine_iff, isWordLine_iff]
  obtain ⟨-, hsplit⟩ | ⟨name, operand, -, -, hsplit⟩ := splitLine_cases line
  · rw [assemble_of_plain hsplit]
    constructor
    · rintro ⟨i, ⟨hmod, hname⟩, hw⟩
      exact .inl ⟨i, legal_of_no_modulus hmod, .inl ⟨hmod, by rw [hsplit, hname]⟩, hw.symm⟩
    · rintro (⟨i, -, ⟨hmod, hcut⟩ | ⟨_, _, -, -, hcut⟩, hw⟩ | ⟨ds, -, -, hcut⟩) <;> cases hsplit.symm.trans hcut
      exact ⟨i, ⟨hmod, rfl⟩, hw.symm⟩
  · by_cases hname : name = ['.', 'w', 'o', 'r', 'd']
    · subst hname
      rw [assemble_of_word hsplit]
      constructor
      · rintro ⟨ds, rfl, h8, hnum⟩
        exact .inr ⟨ds, h8, hnum, hsplit⟩
      · rintro (⟨i, -, ⟨-, hcut⟩ | ⟨_, _, -, -, hcut⟩, -⟩ | ⟨ds, h8, hnum, hcut⟩)
        · exact absurd (congrArg Prod.fst (hcut.symm.trans hsplit)) (mnemonic_ne_word i)
        · exact absurd (congrArg Prod.fst (hcut.symm.trans hsplit)) (mnemonic_ne_word i)
        · cases hsplit.symm.trans hcut
          exact ⟨ds, rfl, h8, hnum⟩
    · rw [assemble_of_operand hsplit hname]
      constructor
      · rintro ⟨m, i, hlit, ⟨hmod, rfl⟩, hlegal, hw⟩
        exact .inl ⟨i, hlegal, .inr ⟨m, operand, hmod, hlit, hsplit⟩, hw.symm⟩
      · rintro (⟨i, hlegal, ⟨-, hcut⟩ | ⟨m, text, hmod, hlit, hcut⟩, hw⟩ | ⟨ds, -, -, hcut⟩) <;>
          cases hsplit.symm.trans hcut
        · exact ⟨m, i, hlit, ⟨hmod, rfl⟩, hlegal, hw.symm⟩
        · exact absurd rfl hname

end Sys2Proof.Machine
end
